-- ==== Sys2Proof/Word.lean ====
section
/-! DEFINITION. The word types of the RGE8 core (00_scope.md R7, R8). -/

namespace Sys2Proof

/-- A register or memory byte: 8 bits, unsigned (R7 XLEN and byte size, R8). -/
abbrev Byte := BitVec 8

/-- A memory address or the program counter: 16 bits, unsigned (R7 PCLEN and ALEN). -/
abbrev Addr := BitVec 16

end Sys2Proof
end

