-- ==== Sys2Proof/Syntax.lean ====
section
/-! DEFINITION. The instructions of the RGE8 core (30_encoding.md R55, R57, R59). -/

namespace Sys2Proof

/-- One constructor per row of spec/opcode_table.json: the 16 rows of R55 and the fallback row `???`
(R57, R111), "16 constructors plus one `Unknown(byte)`" (R59). An operand is the literal of an `Immediate8`
instruction or the 16-bit address of an `Absolute16` one (R54). -/
inductive Instr where
  /-- LDX, `x ← mem[addr]` (R90). -/
  | ldx (addr : Addr)
  /-- LDXIM, `x ← imm` (R91). -/
  | ldxim (imm : Byte)
  /-- STX, `mem[addr] ← x` (R92). -/
  | stx (addr : Addr)
  /-- LDY, `y ← mem[addr]` (R93). -/
  | ldy (addr : Addr)
  /-- LDYIM, `y ← imm` (R94). -/
  | ldyim (imm : Byte)
  /-- STY, `mem[addr] ← y` (R95). -/
  | sty (addr : Addr)
  /-- LDAIM, `a ← imm` (R96). -/
  | ldaim (imm : Byte)
  /-- ADC, `a ← a + mem[addr] + carry-in (mod 256)` (R100). -/
  | adc (addr : Addr)
  /-- STA, `mem[addr] ← a` (R97). -/
  | sta (addr : Addr)
  /-- CLD, clear the decimal flag, bit 3 (R105). -/
  | cld
  /-- CLC, clear the carry flag, bit 0 (R106). -/
  | clc
  /-- RTS, terminate execution (R110). -/
  | rts
  /-- TAX, `x ← a` (R115). -/
  | tax
  /-- TXA, `a ← x` (R116). -/
  | txa
  /-- TAY, `y ← a` (R117). -/
  | tay
  /-- TYA, `a ← y` (R118). -/
  | tya
  /-- `???`, any byte that is not one of the 16 opcodes: a 1-byte no-operation (R57, R111). -/
  | unknown (opcode : Byte)
  deriving DecidableEq, Repr

end Sys2Proof
end

