-- ==== Sys2Proof/Decode.lean ====
section
/-! DEFINITION. The decoder and the encoder (30_encoding.md R50 to R59).

"A model should keep the opcode bytes in one table so that a correction is one edit"
(93_implementation_defined.md U15): the 16 bytes are the constants `opcodeLdx` … `opcodeTya`, and both the
decoder's table and the encoder name them. -/

namespace Sys2Proof

/-! ### The opcode bytes (R55) -/

abbrev opcodeLdx : Byte := 0xAE
abbrev opcodeLdxim : Byte := 0xA2
abbrev opcodeStx : Byte := 0x8E
abbrev opcodeLdy : Byte := 0xAC
abbrev opcodeLdyim : Byte := 0xA0
abbrev opcodeSty : Byte := 0x8C
abbrev opcodeLdaim : Byte := 0xA9
abbrev opcodeAdc : Byte := 0x6D
abbrev opcodeSta : Byte := 0x8D
abbrev opcodeCld : Byte := 0xD8
abbrev opcodeClc : Byte := 0x18
abbrev opcodeRts : Byte := 0x60
abbrev opcodeTax : Byte := 0xAA
abbrev opcodeTxa : Byte := 0x8A
abbrev opcodeTay : Byte := 0xA8
abbrev opcodeTya : Byte := 0x98

/-! ### The opcode table -/

/-- A row of the opcode table without its byte: the format (R50 to R53) and, given what the format's
operand bytes hold, the instruction. -/
inductive Entry where
  /-- Format `None`, 1 byte (R51). -/
  | none (i : Instr)
  /-- Format `Immediate8`, 2 bytes (R52). -/
  | immediate8 (mk : Byte → Instr)
  /-- Format `Absolute16`, 3 bytes (R53). -/
  | absolute16 (mk : Addr → Instr)

/-- The "closed table" of the 16 opcodes, in the spec's order (R55). -/
def opcodeTable : List (Byte × Entry) :=
  [(opcodeLdx, .absolute16 .ldx),
   (opcodeLdxim, .immediate8 .ldxim),
   (opcodeStx, .absolute16 .stx),
   (opcodeLdy, .absolute16 .ldy),
   (opcodeLdyim, .immediate8 .ldyim),
   (opcodeSty, .absolute16 .sty),
   (opcodeLdaim, .immediate8 .ldaim),
   (opcodeAdc, .absolute16 .adc),
   (opcodeSta, .absolute16 .sta),
   (opcodeCld, .none .cld),
   (opcodeClc, .none .clc),
   (opcodeRts, .none .rts),
   (opcodeTax, .none .tax),
   (opcodeTxa, .none .txa),
   (opcodeTay, .none .tay),
   (opcodeTya, .none .tya)]

/-- Look a byte up in a table whose first column is the opcode. -/
def lookupEntry (op : Byte) : List (Byte × Entry) → Option Entry
  | [] => Option.none
  | row :: rows => if row.1 = op then some row.2 else lookupEntry op rows

/-- `Decode(opcode)` of R72: the byte's row, and for a byte not in the table the unknown-opcode no-op with
format `None` (R57). It depends on the opcode byte and nothing else (R58). -/
def entryOf (op : Byte) : Entry :=
  match lookupEntry op opcodeTable with
  | some e => e
  | Option.none => .none (.unknown op)

/-- The instruction's length in bytes (R50, R56). -/
def Entry.length : Entry → Nat
  | .none _ => 1
  | .immediate8 _ => 2
  | .absolute16 _ => 3

/-! ### Operand assembly (R34, R54) -/

/-- `addr = {hi, lo} = hi * 256 + lo`: byte 2 of an `Absolute16` instruction is the low half (R34). -/
def addrOfBytes (lo hi : Byte) : Addr := hi ++ lo

/-- Bits 7:0 of an address, the first operand byte (R53). -/
def loByte (addr : Addr) : Byte := addr.extractLsb' 0 8

/-- Bits 15:8 of an address, the second operand byte (R53). -/
def hiByte (addr : Addr) : Byte := addr.extractLsb' 8 8

/-! ### Decoding a list of bytes -/

/-- Why a list of bytes holds no instruction. No byte value is rejected (R59); only a list that ends
before the instruction does is. Log entry 10. -/
inductive DecodeError where
  /-- The list is empty. -/
  | noOpcode
  /-- The list ends inside the operand bytes. -/
  | truncated
  deriving DecidableEq, Repr

/-- The instruction at the head of a list of bytes, and the bytes after it (R50, R54, R72). -/
def decode : List Byte → Except DecodeError (Instr × List Byte)
  | [] => .error .noOpcode
  | op :: rest =>
    match entryOf op, rest with
    | .none i, rest => .ok (i, rest)
    | .immediate8 mk, imm :: rest => .ok (mk imm, rest)
    | .absolute16 mk, lo :: hi :: rest => .ok (mk (addrOfBytes lo hi), rest)
    | .immediate8 _, [] => .error .truncated
    | .absolute16 _, _ => .error .truncated

/-! ### Encoding -/

/-- The bytes of an `Absolute16` instruction: opcode, low byte, high byte (R53). -/
def absoluteBytes (op : Byte) (addr : Addr) : List Byte := [op, loByte addr, hiByte addr]

/-- The bytes of an instruction, in memory order (R51 to R53, R55, R61). -/
def encode : Instr → List Byte
  | .ldx addr => absoluteBytes opcodeLdx addr
  | .ldxim imm => [opcodeLdxim, imm]
  | .stx addr => absoluteBytes opcodeStx addr
  | .ldy addr => absoluteBytes opcodeLdy addr
  | .ldyim imm => [opcodeLdyim, imm]
  | .sty addr => absoluteBytes opcodeSty addr
  | .ldaim imm => [opcodeLdaim, imm]
  | .adc addr => absoluteBytes opcodeAdc addr
  | .sta addr => absoluteBytes opcodeSta addr
  | .cld => [opcodeCld]
  | .clc => [opcodeClc]
  | .rts => [opcodeRts]
  | .tax => [opcodeTax]
  | .txa => [opcodeTxa]
  | .tay => [opcodeTay]
  | .tya => [opcodeTya]
  | .unknown op => [op]

/-! ### A word of the opcode table -/

/-- The three bytes, first byte first, of an instruction whose `nbits` low bits are `w`, numbered as
spec/opcode_table.json numbers them (the second byte is bits 15..8); the bits above `nbits` are 0. -/
def tableWordBytes (nbits w : Nat) : List Byte :=
  let v := w % 2 ^ nbits
  [BitVec.ofNat 8 v, BitVec.ofNat 8 (v / 256), BitVec.ofNat 8 (v / 65536)]

/-- What the decoder reads from a word of the opcode table. -/
def decodeTableWord (nbits w : Nat) : Option Instr :=
  match decode (tableWordBytes nbits w) with
  | .ok (i, _) => some i
  | .error _ => Option.none

end Sys2Proof
end

