-- ==== Sys2Proof/Config.lean ====
section
/-! DEFINITION. What an implementation fixes (00_scope.md R7).

R7 leaves the core nothing to choose: every size is a constant of the ISA. The widths XLEN, PCLEN and
ALEN are the types `Byte` and `Addr` of Word.lean. LOAD_ADDRESS and INITIAL_MEMORY are arguments of the
host's actions START and load (Machine/HostPort.lean); STEP_BOUND is a test harness's, the fuel of
`Host.Core.run`; COUNT_WIDTH is unbounded (`icount` is a natural number, decision D5, log entry 4);
RTS_ADVANCES_PC is the spec's decided value, true (decision D3, log entry 2), and stands in the meaning of
RTS. No value of the spec is free (R83), so there is no opaque constant here. -/

namespace Sys2Proof.Config

/-- MEMSIZE: the number of memory cells (R7, R30). -/
abbrev memSize : Nat := 65536

end Sys2Proof.Config
end

