-- ==== Sys2Proof/Machine/State.lean ====
section
/-! DEFINITION. The state of the RGE8 core (10_state.md R10 to R29) and the reasons a step can stop. -/

namespace Sys2Proof.Machine

/-- The engine's run state (R25). -/
inductive RunState where
  /-- RUNNING: the engine performs steps. -/
  | running
  /-- HALTED: the engine performs no step (R78); also the state before the first START (R28, D6). -/
  | halted
  deriving DecidableEq, Repr

/-- The three general registers (R11). -/
inductive Reg where
  /-- The accumulator. -/
  | a
  /-- Index register x. -/
  | x
  /-- Index register y. -/
  | y
  deriving DecidableEq, Repr

/-- The eight bits of `p`, layout `N V - B D I Z C` from bit 7 down to bit 0 (R16). -/
inductive Flag where
  /-- N, bit 7 (R18). -/
  | n
  /-- V, bit 6 (R20). -/
  | v
  /-- The bit without a name, bit 5 (R23). -/
  | bit5
  /-- B, bit 4 (R23). -/
  | b
  /-- D, bit 3 (R22). -/
  | d
  /-- I, bit 2 (R23). -/
  | i
  /-- Z, bit 1 (R19). -/
  | z
  /-- C, bit 0 (R21). -/
  | c
  deriving DecidableEq, Repr

/-- Memory: the cells that differ from what an unlisted cell reads as, by strictly rising address
(the form `Memory.wf` of Machine/Ops.lean; log entry 7). -/
abbrev Memory := List Host.Cell

/-- The nine pieces of architectural state, and no other (R10, R29). -/
structure State where
  /-- The accumulator (R11). -/
  a : Byte
  /-- Index register x (R11). -/
  x : Byte
  /-- Index register y (R11). -/
  y : Byte
  /-- The stack pointer, which no instruction reads or writes (R15). -/
  s : Byte
  /-- The status-flag register (R16). -/
  p : Byte
  /-- The program counter: between steps, the address of the next opcode (R13). -/
  pc : Addr
  /-- The 65,536 memory cells (R27). -/
  mem : Memory
  /-- The engine's run state, the spec's `state` (R25). -/
  runState : RunState
  /-- The instruction counter, unbounded (R26, D5, log entry 4). -/
  icount : Nat
  deriving DecidableEq, Repr

/-- The machine right after RESET (R28, R140): `a=x=y=p=s=0`, every memory cell 0x00, `icount` 0
(decision D5, log entry 4), HALTED (decision D6, log entry 5).
DESIGN CHOICE (log entry 1): the spec gives `pc` no value between RESET and START; the model names 0. -/
def State.reset : State where
  a := 0
  x := 0
  y := 0
  s := 0
  p := 0
  pc := 0
  mem := []
  runState := .halted
  icount := 0

/-- Why the machine stops with a fault. There is no constructor: "A model needs no fault constructor for
this machine" (92_eei_decisions.md D10, 60_exceptions.md R120). DEDUCED, log entry 9. -/
inductive Fault where
  deriving DecidableEq, Repr

/-- Why a request is refused. -/
inductive Refusal where
  /-- An instruction without a meaning, by its mnemonic. Nobody raises it: every arm of `exec` has its
  meaning. Safe. -/
  | notModelled (mnemonic : String)
  /-- The host acts on the core while the engine is RUNNING, where it has no move (00_scope.md R6, D12).
  Raised by `hostAct` and `hostView` of Machine/HostPort.lean, and by `hostLaunch` of Machine/Assembly.lean
  through `hostAct`, never by `exec` or `step`. Safe
  (log entry 8). -/
  | hostExcluded
  deriving DecidableEq, Repr

end Sys2Proof.Machine
end

