-- ==== Sys2Proof/Machine/Ops.lean ====
section
/-! DEFINITION. The named operations over memory and registers (20_memory.md R30 to R37, 40_engine_cycle.md
R75 to R77).

TAKING AN EXCEPTION HAS NO OPERATION HERE: the hardware raises none, saves nothing, has no vector and no
return from exception (60_exceptions.md R120, R121, R123, R124). -/

namespace Sys2Proof.Machine

/-! ### Memory as a list of cells -/

/-- What a cell that nothing has written reads as: memory is "zero-initialized" (R28, R140). -/
def Memory.unlisted : Byte := 0

/-- The byte at an address. -/
def Memory.read : Memory → Nat → Byte
  | [], _ => Memory.unlisted
  | cell :: m, addr => if cell.1 = addr then cell.2 else Memory.read m addr

/-- Take every cell at an address out of the list. -/
def Memory.erase : Memory → Nat → Memory
  | [], _ => []
  | cell :: m, addr => if cell.1 = addr then Memory.erase m addr else cell :: Memory.erase m addr

/-- Put a cell before the first cell with a higher address. -/
def Memory.insert : Memory → Nat → Byte → Memory
  | [], addr, v => [(addr, v)]
  | cell :: m, addr, v =>
    if addr < cell.1 then (addr, v) :: cell :: m else cell :: Memory.insert m addr v

/-- Write a byte: the old cell goes, and the new one is listed unless it holds what an unlisted cell
reads as. -/
def Memory.write (m : Memory) (addr : Nat) (v : Byte) : Memory :=
  if v = Memory.unlisted then Memory.erase m addr else Memory.insert (Memory.erase m addr) addr v

/-- Every cell of the list has an address of at least `bound`, the addresses rise strictly and are valid,
and no cell holds what an unlisted cell reads as. -/
def Memory.wfFrom : Nat → Memory → Bool
  | _, [] => true
  | bound, cell :: m =>
    decide (bound ≤ cell.1) && decide (cell.1 < Config.memSize) && decide (cell.2 ≠ Memory.unlisted)
      && Memory.wfFrom (cell.1 + 1) m

/-- The canonical form of memory (log entry 7). -/
def Memory.wf (m : Memory) : Bool := Memory.wfFrom 0 m

/-! ### The two memory primitives (R32) -/

/-- `MemRead(addr, 1)`: total, no side effect (R31, R32). -/
def readByte (s : State) (addr : Addr) : Byte := Memory.read s.mem addr.toNat

/-- `MemWrite(addr, 1, v)`: sets one cell and leaves every other and every register (R31, R32). -/
def writeByte (addr : Addr) (v : Byte) (s : State) : State :=
  { s with mem := Memory.write s.mem addr.toNat v }

/-- Write bytes at consecutive addresses, `mod 65536`, from `addr` up (R63). -/
def writeBytes (addr : Addr) : List Byte → State → State
  | [], s => s
  | v :: vs, s => writeBytes (addr + 1) vs (writeByte addr v s)

/-! ### Registers (R11) -/

/-- Read a general register. -/
def readReg (r : Reg) (s : State) : Byte :=
  match r with
  | .a => s.a
  | .x => s.x
  | .y => s.y

/-- Write a general register; the three do not alias (R11). -/
def writeReg (r : Reg) (v : Byte) (s : State) : State :=
  match r with
  | .a => { s with a := v }
  | .x => { s with x := v }
  | .y => { s with y := v }

/-! ### The tail of a step (R75 to R77) -/

/-- The common tail of every step: `pc <- pc +16 length` (R75, wrapping: R14) and `icount <- icount + 1`
(R76). -/
def retire (length : Nat) (s : State) : State :=
  { s with pc := s.pc + BitVec.ofNat 16 length, icount := s.icount + 1 }

/-- `state <- HALTED` (R77). -/
def halt (s : State) : State := { s with runState := .halted }

end Sys2Proof.Machine
end

