-- ==== Sys2Proof/Machine/Flags.lean ====
section
/-! DEFINITION. The status register's bits and every flag computation (10_state.md R16 to R24,
40_engine_cycle.md R79, 42_arithmetic.md R100). -/

namespace Sys2Proof.Machine

/-- The bit of `p` that holds a flag (R16). -/
def flagIndex : Flag → Nat
  | .n => 7
  | .v => 6
  | .bit5 => 5
  | .b => 4
  | .d => 3
  | .i => 2
  | .z => 1
  | .c => 0

/-- `p[i]`. -/
def readFlag (f : Flag) (p : Byte) : Bool := p.getLsbD (flagIndex f)

/-- The byte whose only set bit is the flag's. -/
def flagMask (f : Flag) : Byte := 1#8 <<< flagIndex f

/-- `p[i] <- v`: "a write to one bit leaves every other bit as it was" (00_scope.md section 6, R17). -/
def writeFlag (f : Flag) (v : Bool) (p : Byte) : Byte :=
  if v then p ||| flagMask f else p &&& ~~~flagMask f

/-- N: bit 7 of the result (R18). -/
def negativeOf (r : Byte) : Bool := r.getLsbD 7

/-- Z: the result is 0 (R19). -/
def zeroOf (r : Byte) : Bool := decide (r = 0)

/-- `SetNZ(v)` (R79). -/
def setNZ (v : Byte) (s : State) : State :=
  { s with p := writeFlag .z (zeroOf v) (writeFlag .n (negativeOf v) s.p) }

/-- Clear one flag of `p` (R105, R106). -/
def clearFlag (f : Flag) (s : State) : State := { s with p := writeFlag f false s.p }

/-- ADC's "full (pre-truncation) 9-bit sum" `a + m + cin`, an unbounded integer (R100). -/
def adcSum (a m : Byte) (cin : Bool) : Nat := a.toNat + m.toNat + cin.toNat

/-- ADC's result: the sum `mod 256` (R100). -/
def adcResult (a m : Byte) (cin : Bool) : Byte := BitVec.ofNat 8 (adcSum a m cin)

/-- ADC's C: the sum exceeds 255 (R21). -/
def adcCarry (a m : Byte) (cin : Bool) : Bool := decide (adcSum a m cin > 255)

/-- ADC's V: the operands have one sign and the result the other (R20); the carry-in takes part in the
result and has no sign of its own. -/
def adcOverflow (a m : Byte) (cin : Bool) : Bool :=
  (a.getLsbD 7 == m.getLsbD 7) && ((adcResult a m cin).getLsbD 7 != a.getLsbD 7)

/-- ADC's write of C, Z, N and V into `p` (R100); bits 5, 4, 3, 2 stay. -/
def adcFlags (a m : Byte) (cin : Bool) (p : Byte) : Byte :=
  writeFlag .v (adcOverflow a m cin)
    (writeFlag .n (negativeOf (adcResult a m cin))
      (writeFlag .z (zeroOf (adcResult a m cin)) (writeFlag .c (adcCarry a m cin) p)))

end Sys2Proof.Machine
end

