-- ==== Sys2Proof/Machine/Operands.lean ====
section
/-! DEFINITION. Operand forms: fetching an instruction and its operand bytes (20_memory.md R36, R37,
30_encoding.md R54, 40_engine_cycle.md R71 to R73), the one data addressing mode (R45), and the data moves
the instruction families share. -/

namespace Sys2Proof.Machine

/-! ### Fetch -/

/-- The opcode, read afresh from memory at every step (R71). -/
def fetchOpcode (s : State) : Byte := readByte s s.pc

/-- The literal of an `Immediate8` instruction, at `pc +16 1` (R54, R73). The address wraps (R36, decision
D4, log entry 3). -/
def fetchImmediate (s : State) : Byte := readByte s (s.pc + 1)

/-- The address of an `Absolute16` instruction: low byte at `pc +16 1`, high byte at `pc +16 2` (R54, R73).
The addresses wrap (R36, decision D4, log entry 3). -/
def fetchAbsolute (s : State) : Addr := addrOfBytes (readByte s (s.pc + 1)) (readByte s (s.pc + 2))

/-- The instruction at `pc`: opcode, then the operand bytes its format has and no others (R37, R73). -/
def fetch (s : State) : Instr :=
  match entryOf (fetchOpcode s) with
  | .none i => i
  | .immediate8 mk => mk (fetchImmediate s)
  | .absolute16 mk => mk (fetchAbsolute s)

/-! ### Moving data -/

/-- Put a byte into a general register and set N and Z from it: what every load and transfer does
(R90, R91, R93, R94, R96, R115 to R118). -/
def loadReg (r : Reg) (v : Byte) (s : State) : State := setNZ v (writeReg r v s)

/-- Write a general register to the addressed cell; the target is not read and no flag changes (R92, R95,
R97). -/
def storeReg (r : Reg) (addr : Addr) (s : State) : State := writeByte addr (readReg r s) s

/-- ADC's effect on `a` and `p`, with `m` the addressed byte; `a` and `p[0]` are read before anything is
written (R100). -/
def addWithCarry (m : Byte) (s : State) : State :=
  { s with
    a := adcResult s.a m (readFlag .c s.p)
    p := adcFlags s.a m (readFlag .c s.p) s.p }

end Sys2Proof.Machine
end

