-- ==== Sys2Proof/Machine/Arithmetic.lean ====
section
/-! DEFINITION. Arithmetic (42_arithmetic.md R100 to R102). -/

namespace Sys2Proof.Machine

/-- ADC: `a <- a + mem[addr] + p[0]` modulo 256, with N, V, Z and C; `pc <- pc +16 3` (R100). D is not
consulted: there is no decimal mode (R102). -/
def execAdc (addr : Addr) (s : State) : Host.Outcome State Fault Refusal :=
  .next (retire 3 (addWithCarry (readByte s addr) s))

end Sys2Proof.Machine
end

