-- ==== Sys2Proof/Machine/Control.lean ====
section
/-! DEFINITION. RTS and the unknown-opcode no-operation (44_control.md R110, R111). -/

namespace Sys2Proof.Machine

/-- RTS: `pc <- pc +16 1; icount <- icount + 1; state <- HALTED` (R110). It pops nothing and is no return.
DEDUCED (log entry 2): that `pc` advances past the RTS is the spec's decision D3. -/
def execRts (s : State) : Host.Outcome State Fault Refusal :=
  .next (halt (retire 1 s))

/-- `???`: `pc <- pc +16 1`, counted, and nothing else, whichever of the 240 bytes it is (R111). -/
def execUnknown (_opcode : Byte) (s : State) : Host.Outcome State Fault Refusal :=
  .next (retire 1 s)

end Sys2Proof.Machine
end

