-- ==== Sys2Proof/Machine/FlagClear.lean ====
section
/-! DEFINITION. Flag-clear instructions (43_flag_clear.md R105, R106). -/

namespace Sys2Proof.Machine

/-- CLD: `p[3] <- 0; pc <- pc +16 1` (R105). -/
def execCld (s : State) : Host.Outcome State Fault Refusal :=
  .next (retire 1 (clearFlag .d s))

/-- CLC: `p[0] <- 0; pc <- pc +16 1` (R106). -/
def execClc (s : State) : Host.Outcome State Fault Refusal :=
  .next (retire 1 (clearFlag .c s))

end Sys2Proof.Machine
end

