-- ==== Sys2Proof/Machine/LoadStore.lean ====
section
/-! DEFINITION. Loads and stores (41_load_store.md R90 to R97). -/

namespace Sys2Proof.Machine

/-- LDX: `v <- MemRead(addr, 1); x <- v; SetNZ(v); pc <- pc +16 3` (R90). -/
def execLdx (addr : Addr) (s : State) : Host.Outcome State Fault Refusal :=
  .next (retire 3 (loadReg .x (readByte s addr) s))

/-- LDXIM: `x <- imm; SetNZ(imm); pc <- pc +16 2` (R91). -/
def execLdxim (imm : Byte) (s : State) : Host.Outcome State Fault Refusal :=
  .next (retire 2 (loadReg .x imm s))

/-- STX: `MemWrite(addr, 1, x); pc <- pc +16 3` (R92). -/
def execStx (addr : Addr) (s : State) : Host.Outcome State Fault Refusal :=
  .next (retire 3 (storeReg .x addr s))

/-- LDY: `v <- MemRead(addr, 1); y <- v; SetNZ(v); pc <- pc +16 3` (R93). -/
def execLdy (addr : Addr) (s : State) : Host.Outcome State Fault Refusal :=
  .next (retire 3 (loadReg .y (readByte s addr) s))

/-- LDYIM: `y <- imm; SetNZ(imm); pc <- pc +16 2` (R94). -/
def execLdyim (imm : Byte) (s : State) : Host.Outcome State Fault Refusal :=
  .next (retire 2 (loadReg .y imm s))

/-- STY: `MemWrite(addr, 1, y); pc <- pc +16 3` (R95). -/
def execSty (addr : Addr) (s : State) : Host.Outcome State Fault Refusal :=
  .next (retire 3 (storeReg .y addr s))

/-- LDAIM: `a <- imm; SetNZ(imm); pc <- pc +16 2` (R96). -/
def execLdaim (imm : Byte) (s : State) : Host.Outcome State Fault Refusal :=
  .next (retire 2 (loadReg .a imm s))

/-- STA: `MemWrite(addr, 1, a); pc <- pc +16 3` (R97). -/
def execSta (addr : Addr) (s : State) : Host.Outcome State Fault Refusal :=
  .next (retire 3 (storeReg .a addr s))

end Sys2Proof.Machine
end

