-- ==== Sys2Proof/Machine/Transfer.lean ====
section
/-! DEFINITION. Register transfers (45_transfer.md R115 to R118). -/

namespace Sys2Proof.Machine

/-- TAX: `x <- a; SetNZ(a); pc <- pc +16 1` (R115). -/
def execTax (s : State) : Host.Outcome State Fault Refusal :=
  .next (retire 1 (loadReg .x (readReg .a s) s))

/-- TXA: `a <- x; SetNZ(x); pc <- pc +16 1` (R116). -/
def execTxa (s : State) : Host.Outcome State Fault Refusal :=
  .next (retire 1 (loadReg .a (readReg .x s) s))

/-- TAY: `y <- a; SetNZ(a); pc <- pc +16 1` (R117). -/
def execTay (s : State) : Host.Outcome State Fault Refusal :=
  .next (retire 1 (loadReg .y (readReg .a s) s))

/-- TYA: `a <- y; SetNZ(y); pc <- pc +16 1` (R118). -/
def execTya (s : State) : Host.Outcome State Fault Refusal :=
  .next (retire 1 (loadReg .a (readReg .y s) s))

end Sys2Proof.Machine
end

