-- ==== Sys2Proof/Machine/Dispatch.lean ====
section
/-! DEFINITION. One arm per instruction (40_engine_cycle.md R74). -/

namespace Sys2Proof.Machine

def exec (i : Instr) (s : State) : Host.Outcome State Fault Refusal :=
  match i with
  -- 41_load_store.md and 42_arithmetic.md, in the table's order
  | .ldx addr => Sys2Proof.Machine.execLdx addr s
  | .ldxim imm => Sys2Proof.Machine.execLdxim imm s
  | .stx addr => Sys2Proof.Machine.execStx addr s
  | .ldy addr => Sys2Proof.Machine.execLdy addr s
  | .ldyim imm => Sys2Proof.Machine.execLdyim imm s
  | .sty addr => Sys2Proof.Machine.execSty addr s
  | .ldaim imm => Sys2Proof.Machine.execLdaim imm s
  | .adc addr => Sys2Proof.Machine.execAdc addr s
  | .sta addr => Sys2Proof.Machine.execSta addr s
  -- 43_flag_clear.md
  | .cld => Sys2Proof.Machine.execCld s
  | .clc => Sys2Proof.Machine.execClc s
  -- 44_control.md
  | .rts => Sys2Proof.Machine.execRts s
  -- 45_transfer.md
  | .tax => Sys2Proof.Machine.execTax s
  | .txa => Sys2Proof.Machine.execTxa s
  | .tay => Sys2Proof.Machine.execTay s
  | .tya => Sys2Proof.Machine.execTya s
  -- the fallback row of the opcode table
  | .unknown opcode => Sys2Proof.Machine.execUnknown opcode s

end Sys2Proof.Machine
end

