-- ==== Sys2Proof/Machine/Step.lean ====
section
/-! DEFINITION. One step of the engine (40_engine_cycle.md R70, R78), and the placing of one instruction
where the next step fetches. -/

namespace Sys2Proof.Machine

/-- RUNNING: fetch and decode the instruction at `pc` and execute it (R70). HALTED: the engine "fetches
nothing and changes nothing" (R78, decision D7, log entry 6). -/
def step (s : State) : Host.Outcome State Fault Refusal :=
  match s.runState with
  | .running => exec (fetch s) s
  | .halted => .next s

/-- The host's load of one instruction at `pc` and its START there (R141, R142), of which only what the
fetch needs is done: the three bytes at `pc`, and the run state RUNNING. Log entry 5. -/
def State.withFetchWord (s : State) (nbits w : Nat) : State :=
  { writeBytes s.pc (tableWordBytes nbits w) s with runState := .running }

end Sys2Proof.Machine
end

