-- ==== Sys2Proof/Machine/HostPort.lean ====
section
/-! DEFINITION. The control and status interface (00_scope.md R5, R6; 20_memory.md R46;
70_reset_and_hazards.md R140 to R145): what the host can do to the core and see of it while the engine is
not RUNNING. These are functions beside `step`, not steps (log entry 8). -/

namespace Sys2Proof.Machine

/-- The 8-bit registers the host reaches by name: all five of R10 (R145; `s` and all of `p`: R15, R23, D13). -/
inductive HostReg where
  /-- The accumulator. -/
  | a
  /-- Index register x. -/
  | x
  /-- Index register y. -/
  | y
  /-- The stack pointer. -/
  | s
  /-- The status-flag register, all eight bits. -/
  | p
  deriving DecidableEq, Repr

/-- What the host can do to the core. -/
inductive HostAction where
  /-- RESET (R140). DESIGN CHOICE (log entry 17): it may be taken again after a run. -/
  | reset
  /-- Load bytes at consecutive addresses: a program or its data (R46, R141). -/
  | load (addr : Addr) (bytes : List Byte)
  /-- Write one 8-bit register (R145). -/
  | setReg (r : HostReg) (v : Byte)
  /-- Write `pc` (R145: "all registers"). -/
  | setPc (addr : Addr)
  /-- START at LOAD_ADDRESS (R142). -/
  | start (loadAddress : Addr)
  deriving DecidableEq, Repr

/-- Write one 8-bit register from outside: the effect alone, taken through `hostAct` (R6, log entry 8). -/
def hostSetReg (r : HostReg) (v : Byte) (s : State) : State :=
  match r with
  | .a => { s with a := v }
  | .x => { s with x := v }
  | .y => { s with y := v }
  | .s => { s with s := v }
  | .p => { s with p := v }

/-- START: `pc <- LOAD_ADDRESS; icount <- 0; state <- RUNNING`, and nothing else (R142, D5, D6). It is the
effect alone: the host takes it through `hostAct`, only when the engine is not RUNNING (R6, log entry 8). -/
def hostStart (loadAddress : Addr) (s : State) : State :=
  { s with pc := loadAddress, icount := 0, runState := .running }

/-- The state an action leads to when the engine is not RUNNING; on a RUNNING state the host has no such move,
and `hostAct` does not come here (R6, log entry 8). DESIGN CHOICE (log entry 17): R140 has RESET happen once,
before anything else, and the spec does not say what a RESET after a run does; here it is the same RESET in
every HALTED state and zeroes everything again. -/
def hostEffect (h : HostAction) (s : State) : State :=
  match h with
  | .reset => State.reset
  | .load addr bytes => writeBytes addr bytes s
  | .setReg r v => hostSetReg r v s
  | .setPc addr => { s with pc := addr }
  | .start loadAddress => hostStart loadAddress s

/-- A host action: it has its effect before START and after HALTED, and "the host has no move while
`state == RUNNING`" (R6, D12). -/
def hostAct (h : HostAction) (s : State) : Host.Outcome State Fault Refusal :=
  match s.runState with
  | .running => .refused .hostExcluded
  | .halted => .next (hostEffect h s)

/-- What the host sees of the core: all of it, the instruction count among it, when the engine is not
RUNNING (R5, R6, R82, R144), and nothing before. -/
def hostView (s : State) : Host.Outcome State Fault Refusal :=
  match s.runState with
  | .running => .refused .hostExcluded
  | .halted => .next s

end Sys2Proof.Machine
end

