-- ==== Sys2Proof/Machine/Assembly.lean ====
section
/-! DEFINITION. The assembly text the spec writes programs in (30_encoding.md R60 to R64): which bytes a
text stands for. The assembler as a component is out of the hardware's scope (00_scope.md R3); this is the
tool R64 and decision D17 describe, which turns the text into INITIAL_MEMORY and refuses every input the
text's rules leave undefined. No step reads anything here. Log entry 12. -/

namespace Sys2Proof.Machine

/-- Why a text is refused (R64, D17, 93_implementation_defined.md U3 to U6). -/
inductive AsmError where
  /-- The first line is not one decimal load address in 0..65535 (R60). -/
  | badLoadAddress
  /-- The line's first token is none of the 16 mnemonics; a blank line has none. -/
  | unknownMnemonic
  /-- The mnemonic's operand is missing, or there is a token too many. -/
  | wrongArity
  /-- The operand is not a decimal literal. -/
  | malformedLiteral
  /-- An immediate above 255 or an address above 65535. -/
  | literalOutOfRange
  /-- The text ends without an END line. DESIGN CHOICE (log entry 12): any line whose only token is END is
  one, whatever white space stands around it. -/
  | missingEnd
  /-- The bytes would go past address 65535. -/
  | pastTopOfMemory
  deriving DecidableEq, Repr

/-- What a text stands for: the load address and the bytes from there up (R62, R63). -/
structure Image where
  /-- The value `pc` is preset to (R62). -/
  loadAddress : Addr
  /-- The emitted bytes, at consecutive addresses (R63). -/
  bytes : List Byte
  deriving DecidableEq, Repr

/-- The mnemonics and what each takes: none, a literal 0..255, or an address 0..65535 (R61). -/
def mnemonicTable : List (List Char × Entry) :=
  [(['L', 'D', 'X'], .absolute16 .ldx),
   (['L', 'D', 'X', 'I', 'M'], .immediate8 .ldxim),
   (['S', 'T', 'X'], .absolute16 .stx),
   (['L', 'D', 'Y'], .absolute16 .ldy),
   (['L', 'D', 'Y', 'I', 'M'], .immediate8 .ldyim),
   (['S', 'T', 'Y'], .absolute16 .sty),
   (['L', 'D', 'A', 'I', 'M'], .immediate8 .ldaim),
   (['A', 'D', 'C'], .absolute16 .adc),
   (['S', 'T', 'A'], .absolute16 .sta),
   (['C', 'L', 'D'], .none .cld),
   (['C', 'L', 'C'], .none .clc),
   (['R', 'T', 'S'], .none .rts),
   (['T', 'A', 'X'], .none .tax),
   (['T', 'X', 'A'], .none .txa),
   (['T', 'A', 'Y'], .none .tay),
   (['T', 'Y', 'A'], .none .tya)]

/-- Look a token up among the mnemonics. -/
def lookupMnemonic (token : List Char) : List (List Char × Entry) → Option Entry
  | [] => Option.none
  | row :: rows => if row.1 = token then some row.2 else lookupMnemonic token rows

/-- The bytes of one instruction line, its operand already read as a number (R61, R63). -/
def emitInstr (e : Entry) (operand : Option Nat) : Except AsmError (List Byte) :=
  match e, operand with
  | .none i, Option.none => .ok (encode i)
  | .immediate8 mk, some n =>
    if n < 256 then .ok (encode (mk (BitVec.ofNat 8 n))) else .error .literalOutOfRange
  | .absolute16 mk, some n =>
    if n < 65536 then .ok (encode (mk (BitVec.ofNat 16 n))) else .error .literalOutOfRange
  | .none _, some _ => .error .wrongArity
  | .immediate8 _, Option.none => .error .wrongArity
  | .absolute16 _, Option.none => .error .wrongArity

/-- The bytes a mnemonic and its operand stand for (R61). -/
def emitMnemonic (mnemonic : List Char) (operand : Option Nat) : Except AsmError (List Byte) :=
  match lookupMnemonic mnemonic mnemonicTable with
  | some e => emitInstr e operand
  | Option.none => .error .unknownMnemonic

/-- Split a text at each character `sep` accepts. -/
def splitText (sep : Char → Bool) : List Char → List (List Char)
  | [] => [[]]
  | c :: cs =>
    match splitText sep cs with
    | [] => [[c]]
    | word :: words => if sep c then [] :: word :: words else (c :: word) :: words

/-- White space inside a line. -/
def isBlank (c : Char) : Bool := c == ' ' || c == '\t' || c == '\r'

/-- The whitespace-separated tokens of a line (R60). -/
def tokensOf (line : List Char) : List (List Char) :=
  (splitText isBlank line).filter fun token => !token.isEmpty

/-- The value of a list of decimal digits read after `acc`. -/
def digitsValue (acc : Nat) : List Char → Option Nat
  | [] => some acc
  | c :: cs =>
    if 48 ≤ c.toNat ∧ c.toNat ≤ 57 then digitsValue (acc * 10 + (c.toNat - 48)) cs else Option.none

/-- A decimal literal: digits only, at least one (R60). -/
def decimalValue (token : List Char) : Option Nat :=
  if token.isEmpty then Option.none else digitsValue 0 token

/-- The bytes of one line's tokens: a mnemonic and at most one operand (R60, R61). -/
def assembleTokens : List (List Char) → Except AsmError (List Byte)
  | [] => .error .unknownMnemonic
  | [mnemonic] => emitMnemonic mnemonic Option.none
  | [mnemonic, operand] =>
    match decimalValue operand with
    | some n => emitMnemonic mnemonic (some n)
    | Option.none => .error .malformedLiteral
  | _ :: _ :: _ :: _ => .error .wrongArity

/-- The bytes of the lines up to END, which emits none; the lines after it are not read (R62, R63,
decision D14). DESIGN CHOICE (log entry 12): R60 says "a line containing exactly `END`" and not whether white
space may stand around it; here the END line is any line whose only token is END, so that spaces, tabs or a
carriage return before or after END are accepted. -/
def assembleLines : List (List Char) → Except AsmError (List Byte)
  | [] => .error .missingEnd
  | line :: lines =>
    if tokensOf line = [['E', 'N', 'D']] then .ok []
    else
      match assembleTokens (tokensOf line) with
      | .error e => .error e
      | .ok bytes =>
        match assembleLines lines with
        | .error e => .error e
        | .ok rest => .ok (bytes ++ rest)

/-- The image of the instruction lines at a load address, refused where it would pass the top of memory. -/
def assembleAt (loadAddress : Nat) (lines : List (List Char)) : Except AsmError Image :=
  match assembleLines lines with
  | .error e => .error e
  | .ok bytes =>
    if loadAddress + bytes.length ≤ Config.memSize then
      .ok { loadAddress := BitVec.ofNat 16 loadAddress, bytes := bytes }
    else .error .pastTopOfMemory

/-- The image of a program text (R60 to R63). -/
def assemble (text : List Char) : Except AsmError Image :=
  match splitText (fun c => c == '\n') text with
  | [] => .error .badLoadAddress
  | first :: lines =>
    match tokensOf first with
    | [token] =>
      match decimalValue token with
      | some n => if n < 65536 then assembleAt n lines else .error .badLoadAddress
      | Option.none => .error .badLoadAddress
    | _ => .error .badLoadAddress

/-- The lifecycle of a program (R143): load the image, then START at its load address, each as the host action
it is. On a RUNNING state the load is refused as every host action is, and nothing happens (R6, D12). DESIGN
CHOICE (log entry 8): the name of that refusal. -/
def hostLaunch (image : Image) (s : State) : Host.Outcome State Fault Refusal :=
  match hostAct (.load image.loadAddress image.bytes) s with
  | .next t => hostAct (.start image.loadAddress) t
  | .fault r => .fault r
  | .refused r => .refused r

end Sys2Proof.Machine
end

