-- ==== Sys2Proof/Safety.lean ====
section
/-! DEFINITION. What the claims say of a run (40_engine_cycle.md R80, R83; 70_reset_and_hazards.md R144,
R147). -/

namespace Sys2Proof.Machine

/-- The invariant of the model's data: memory is in its canonical form. -/
def dataInv (s : State) : Prop := Memory.wf s.mem = true

/-- After `n` steps from `s` the machine is in state `t`: no step of them stopped. -/
def Reaches (n : Nat) (s t : State) : Prop := Sys2Proof.core.run n s = .next t

/-- No number of steps ends in a fault or a refusal (R120: no input whatever makes the core fail). -/
def Safe (s : State) : Prop := ∀ n, ∃ t, Reaches n s t

/-- The run is over within `n` steps. -/
def HaltsWithin (n : Nat) (s : State) : Prop := ∃ t, Reaches n s t ∧ t.runState = .halted

/-- The run has no end: divergence, which is neither a fault nor a halt (R80, 93_implementation_defined.md
U2). -/
def RunsForever (s : State) : Prop := ∀ n, ∃ t, Reaches n s t ∧ t.runState = .running

end Sys2Proof.Machine
end

