-- ==== Sys2Proof/WellFormed.lean ====
section
/-! DEFINITION. Which instructions are well formed (30_encoding.md R55, R57). -/

namespace Sys2Proof

/-- Every operand value of the 16 rows is an instruction: no field has a reserved value (R54, R55). The one
check is on `unknown`, which stands only for a byte that is in no row of the table (R57): those are the
bytes the table's lookup does not find. -/
def Instr.wellFormed : Instr → Bool
  | .ldx _ => true
  | .ldxim _ => true
  | .stx _ => true
  | .ldy _ => true
  | .ldyim _ => true
  | .sty _ => true
  | .ldaim _ => true
  | .adc _ => true
  | .sta _ => true
  | .cld => true
  | .clc => true
  | .rts => true
  | .tax => true
  | .txa => true
  | .tay => true
  | .tya => true
  | .unknown op => (lookupEntry op opcodeTable).isNone

end Sys2Proof
end

