-- ==== Sys2Proof/Certificates/Slice0/Obligations.lean ====
section
/-! DEFINITION. The statements for the provers. They speak the spec's language: bits of `p` by number,
sums and `pc` as natural numbers, memory through a read of one byte. -/

namespace Sys2Proof.Claims

open Sys2Proof.Machine

/-! ### Words the statements share -/

/-- The bytes of an `Absolute16` instruction: the opcode, then the address, low byte first (R34, R53). -/
def EncodedAbsolute (i : Instr) (op : Byte) (addr : Addr) : Prop :=
  ∃ lo hi : Byte, encode i = [op, lo, hi] ∧ addr.toNat = hi.toNat * 256 + lo.toNat

/-- N is set iff the value is above 127, Z iff it is 0, and every other bit of `p` is as it was (R17 to R19,
R79). -/
def MovedNZ (v before after : Byte) : Prop :=
  after.getLsbD 7 = decide (v.toNat > 127) ∧ after.getLsbD 1 = decide (v.toNat = 0)
    ∧ ∀ k, k ≠ 7 → k ≠ 1 → after.getLsbD k = before.getLsbD k

/-- Every byte of memory reads as before. -/
def SameMemory (s t : State) : Prop := ∀ addr, readByte t addr = readByte s addr

/-- The byte at `addr` reads as `v`, every other byte as before. -/
def WroteByte (s t : State) (addr : Addr) (v : Byte) : Prop :=
  ∀ other, readByte t other = if other = addr then v else readByte s other

/-- The common tail of a step other than RTS's: `pc` advanced modulo 65536, one more instruction counted,
and the run state as it was (R14, R75, R76). -/
def Retired (length : Nat) (s t : State) : Prop :=
  t.pc.toNat = (s.pc.toNat + length) % 65536 ∧ t.icount = s.icount + 1 ∧ t.runState = s.runState

/-- The length the byte at `pc` gives the instruction, as R56 lists it. -/
def listedLength (op : Byte) : Nat :=
  if op ∈ [0xAE, 0x8E, 0xAC, 0x8C, 0x6D, 0x8D] then 3
  else if op ∈ [0xA2, 0xA0, 0xA9] then 2
  else 1

/-- The 240 unknown bytes, as R57 lists them. -/
abbrev ListedUnknown (n : Nat) : Prop :=
  n ≤ 0x17 ∨ (0x19 ≤ n ∧ n ≤ 0x5F) ∨ (0x61 ≤ n ∧ n ≤ 0x6C) ∨ (0x6E ≤ n ∧ n ≤ 0x89) ∨ n = 0x8B
    ∨ (0x8F ≤ n ∧ n ≤ 0x97) ∨ (0x99 ≤ n ∧ n ≤ 0x9F) ∨ n = 0xA1 ∨ (0xA3 ≤ n ∧ n ≤ 0xA7) ∨ n = 0xAB
    ∨ n = 0xAD ∨ (0xAF ≤ n ∧ n ≤ 0xD7) ∨ (0xD9 ≤ n ∧ n ≤ 0xFF)

/-- The bits of `p` in an instruction's "Flags touched" entry (R17, R55). -/
def touchedBits : Instr → List Nat
  | .ldx _ => [7, 1]
  | .ldxim _ => [7, 1]
  | .stx _ => []
  | .ldy _ => [7, 1]
  | .ldyim _ => [7, 1]
  | .sty _ => []
  | .ldaim _ => [7, 1]
  | .adc _ => [7, 6, 1, 0]
  | .sta _ => []
  | .cld => [3]
  | .clc => [0]
  | .rts => []
  | .tax => [7, 1]
  | .txa => [7, 1]
  | .tay => [7, 1]
  | .tya => [7, 1]
  | .unknown _ => []

/-- The general register an instruction writes, if any (R12). -/
def writtenReg : Instr → Option Reg
  | .ldx _ => some .x
  | .ldxim _ => some .x
  | .stx _ => none
  | .ldy _ => some .y
  | .ldyim _ => some .y
  | .sty _ => none
  | .ldaim _ => some .a
  | .adc _ => some .a
  | .sta _ => none
  | .cld => none
  | .clc => none
  | .rts => none
  | .tax => some .x
  | .txa => some .a
  | .tay => some .y
  | .tya => some .a
  | .unknown _ => none

/-- The general register an instruction reads, if any (R12). -/
def sourceReg : Instr → Option Reg
  | .ldx _ => none
  | .ldxim _ => none
  | .stx _ => some .x
  | .ldy _ => none
  | .ldyim _ => none
  | .sty _ => some .y
  | .ldaim _ => none
  | .adc _ => some .a
  | .sta _ => some .a
  | .cld => none
  | .clc => none
  | .rts => none
  | .tax => some .a
  | .txa => some .x
  | .tay => some .a
  | .tya => some .y
  | .unknown _ => none

/-- The address an instruction reads data from, if any (R12, R45). -/
def loadAddr : Instr → Option Addr
  | .ldx addr => some addr
  | .ldy addr => some addr
  | .adc addr => some addr
  | .ldxim _ => none
  | .stx _ => none
  | .ldyim _ => none
  | .sty _ => none
  | .ldaim _ => none
  | .sta _ => none
  | .cld => none
  | .clc => none
  | .rts => none
  | .tax => none
  | .txa => none
  | .tay => none
  | .tya => none
  | .unknown _ => none

/-- The address an instruction stores to, if any (R12, R45). -/
def storeAddr : Instr → Option Addr
  | .stx addr => some addr
  | .sty addr => some addr
  | .sta addr => some addr
  | .ldx _ => none
  | .ldxim _ => none
  | .ldy _ => none
  | .ldyim _ => none
  | .ldaim _ => none
  | .adc _ => none
  | .cld => none
  | .clc => none
  | .rts => none
  | .tax => none
  | .txa => none
  | .tay => none
  | .tya => none
  | .unknown _ => none

/-- The address in the bytes after the opcode, `hi * 256 + lo`, the byte addresses wrapping (R34, R36). -/
def operandAddr (s : State) : Addr :=
  BitVec.ofNat 16 ((readByte s (s.pc + 2)).toNat * 256 + (readByte s (s.pc + 1)).toNat)

end Sys2Proof.Claims

open Sys2Proof Sys2Proof.Machine Sys2Proof.Claims

/-! ### Loads and stores (41_load_store.md) -/

/-- R90: LDX. -/
def Obligations.LdxLoadsXFromMemory : Prop :=
  ∀ (addr : Addr) (s : State), EncodedAbsolute (.ldx addr) 0xAE addr ∧
    ∃ t, exec (.ldx addr) s = .next t ∧ t.x = readByte s addr ∧ MovedNZ (readByte s addr) s.p t.p
      ∧ t.a = s.a ∧ t.y = s.y ∧ t.s = s.s ∧ SameMemory s t ∧ Retired 3 s t

/-- R91: LDXIM. -/
def Obligations.LdximLoadsXWithLiteral : Prop :=
  ∀ (imm : Byte) (s : State), encode (.ldxim imm) = [0xA2, imm] ∧
    ∃ t, exec (.ldxim imm) s = .next t ∧ t.x = imm ∧ MovedNZ imm s.p t.p
      ∧ t.a = s.a ∧ t.y = s.y ∧ t.s = s.s ∧ SameMemory s t ∧ Retired 2 s t

/-- R92: STX. -/
def Obligations.StxStoresX : Prop :=
  ∀ (addr : Addr) (s : State), EncodedAbsolute (.stx addr) 0x8E addr ∧
    ∃ t, exec (.stx addr) s = .next t ∧ WroteByte s t addr s.x ∧ t.p = s.p
      ∧ t.a = s.a ∧ t.x = s.x ∧ t.y = s.y ∧ t.s = s.s ∧ Retired 3 s t

/-- R93: LDY. -/
def Obligations.LdyLoadsYFromMemory : Prop :=
  ∀ (addr : Addr) (s : State), EncodedAbsolute (.ldy addr) 0xAC addr ∧
    ∃ t, exec (.ldy addr) s = .next t ∧ t.y = readByte s addr ∧ MovedNZ (readByte s addr) s.p t.p
      ∧ t.a = s.a ∧ t.x = s.x ∧ t.s = s.s ∧ SameMemory s t ∧ Retired 3 s t

/-- R94: LDYIM. -/
def Obligations.LdyimLoadsYWithLiteral : Prop :=
  ∀ (imm : Byte) (s : State), encode (.ldyim imm) = [0xA0, imm] ∧
    ∃ t, exec (.ldyim imm) s = .next t ∧ t.y = imm ∧ MovedNZ imm s.p t.p
      ∧ t.a = s.a ∧ t.x = s.x ∧ t.s = s.s ∧ SameMemory s t ∧ Retired 2 s t

/-- R95: STY. -/
def Obligations.StyStoresY : Prop :=
  ∀ (addr : Addr) (s : State), EncodedAbsolute (.sty addr) 0x8C addr ∧
    ∃ t, exec (.sty addr) s = .next t ∧ WroteByte s t addr s.y ∧ t.p = s.p
      ∧ t.a = s.a ∧ t.x = s.x ∧ t.y = s.y ∧ t.s = s.s ∧ Retired 3 s t

/-- R96: LDAIM. -/
def Obligations.LdaimLoadsAWithLiteral : Prop :=
  ∀ (imm : Byte) (s : State), encode (.ldaim imm) = [0xA9, imm] ∧
    ∃ t, exec (.ldaim imm) s = .next t ∧ t.a = imm ∧ MovedNZ imm s.p t.p
      ∧ t.x = s.x ∧ t.y = s.y ∧ t.s = s.s ∧ SameMemory s t ∧ Retired 2 s t

/-- R97: STA. -/
def Obligations.StaStoresA : Prop :=
  ∀ (addr : Addr) (s : State), EncodedAbsolute (.sta addr) 0x8D addr ∧
    ∃ t, exec (.sta addr) s = .next t ∧ WroteByte s t addr s.a ∧ t.p = s.p
      ∧ t.a = s.a ∧ t.x = s.x ∧ t.y = s.y ∧ t.s = s.s ∧ Retired 3 s t

/-! ### Arithmetic (42_arithmetic.md) -/

/-- R100: ADC. With `m` the addressed byte and `sum` the exact `a + m + p[0]`: the result is the sum modulo
256, C its carry, Z and N the truncated result's, and V is set iff "both operands ≥128 and result <128, or
both <128 and result >127". -/
def Obligations.AdcAddsWithCarryAndSetsNVZC : Prop :=
  ∀ (addr : Addr) (s : State), EncodedAbsolute (.adc addr) 0x6D addr ∧
    ∃ t, exec (.adc addr) s = .next t ∧
      (let a := s.a.toNat
       let m := (readByte s addr).toNat
       let sum := a + m + (if s.p.getLsbD 0 then 1 else 0)
       let r := sum % 256
       t.a.toNat = r
         ∧ t.p.getLsbD 0 = decide (sum > 255)
         ∧ t.p.getLsbD 1 = decide (r = 0)
         ∧ t.p.getLsbD 7 = decide (r > 127)
         ∧ t.p.getLsbD 6 = decide ((a ≥ 128 ∧ m ≥ 128 ∧ r < 128) ∨ (a < 128 ∧ m < 128 ∧ r > 127))
         ∧ ∀ k, k ∉ [7, 6, 1, 0] → t.p.getLsbD k = s.p.getLsbD k)
      ∧ t.x = s.x ∧ t.y = s.y ∧ t.s = s.s ∧ SameMemory s t ∧ Retired 3 s t

/-- R102: there is no decimal mode. With bit 3 of `p` flipped, every instruction, ADC among them, leaves the
same state but for bit 3; ADC's result is the binary sum whatever bit 3 is; CLD clears bit 3. -/
def Obligations.DecimalFlagIsNeverRead : Prop :=
  (∀ (i : Instr) (s : State), ∃ t u, exec i s = .next t ∧ exec i { s with p := s.p ^^^ 0x08 } = .next u
    ∧ u.a = t.a ∧ u.x = t.x ∧ u.y = t.y ∧ u.s = t.s ∧ u.pc = t.pc ∧ SameMemory t u
    ∧ u.runState = t.runState ∧ u.icount = t.icount
    ∧ ∀ k, k ≠ 3 → u.p.getLsbD k = t.p.getLsbD k)
  ∧ (∀ (addr : Addr) (s : State), ∃ t, exec (.adc addr) s = .next t
    ∧ t.a.toNat
        = (s.a.toNat + (readByte s addr).toNat + (if s.p.getLsbD 0 then 1 else 0)) % 256)
  ∧ (∀ s : State, ∃ t, exec .cld s = .next t ∧ t.p.getLsbD 3 = false)

/-! ### Flag-clear instructions (43_flag_clear.md) -/

/-- R105: CLD. -/
def Obligations.CldClearsBitThree : Prop :=
  ∀ s : State, encode .cld = [0xD8] ∧
    ∃ t, exec .cld s = .next t ∧ t.p.getLsbD 3 = false
      ∧ (∀ k, k ≠ 3 → t.p.getLsbD k = s.p.getLsbD k) ∧ t.p = s.p &&& 0xF7
      ∧ t.a = s.a ∧ t.x = s.x ∧ t.y = s.y ∧ t.s = s.s ∧ SameMemory s t ∧ Retired 1 s t

/-- R106: CLC. -/
def Obligations.ClcClearsBitZero : Prop :=
  ∀ s : State, encode .clc = [0x18] ∧
    ∃ t, exec .clc s = .next t ∧ t.p.getLsbD 0 = false
      ∧ (∀ k, k ≠ 0 → t.p.getLsbD k = s.p.getLsbD k) ∧ t.p = s.p &&& 0xFE
      ∧ t.a = s.a ∧ t.x = s.x ∧ t.y = s.y ∧ t.s = s.s ∧ SameMemory s t ∧ Retired 1 s t

/-- The only instructions that change C or V: C becomes 1 only by ADC and becomes 0 only by ADC or CLC, and
V changes only by ADC (R107, derived there from R16 and R55). -/
def Obligations.OnlyAdcAndClcChangeCarryAndOverflow : Prop :=
  ∀ s : State, s.runState = .running → ∃ t, step s = .next t
    ∧ (s.p.getLsbD 0 = false → t.p.getLsbD 0 = true → readByte s s.pc = 0x6D)
    ∧ (s.p.getLsbD 0 = true → t.p.getLsbD 0 = false → readByte s s.pc = 0x6D ∨ readByte s s.pc = 0x18)
    ∧ (t.p.getLsbD 6 ≠ s.p.getLsbD 6 → readByte s s.pc = 0x6D)

/-! ### Control (44_control.md) -/

/-- RTS halts and changes nothing but `pc`, `icount` and the run state. That `pc` moves past the RTS is the
spec's decision D3 (92_eei_decisions.md; log entry 2), not a rule of the source. -/
def Obligations.RtsHaltsAndChangesNothingElse : Prop :=
  ∀ s : State, encode .rts = [0x60] ∧
    ∃ t, exec .rts s = .next t ∧ t.runState = .halted ∧ t.icount = s.icount + 1
      ∧ t.pc.toNat = (s.pc.toNat + 1) % 65536
      ∧ t.a = s.a ∧ t.x = s.x ∧ t.y = s.y ∧ t.s = s.s ∧ t.p = s.p ∧ SameMemory s t

/-- R57: each of the listed bytes decodes, whatever follows it, to the 1-byte no-op, and the no-op advances
`pc` by 1 and changes no register, no flag, no memory and not the run state. (That it is counted is stated in
`UnknownBytesAreWalkedOneByOne`.) -/
def Obligations.UnknownBytesAreOneByteNoOps : Prop :=
  ∀ (op : Byte) (rest : List Byte) (s : State), ListedUnknown op.toNat →
    decode (op :: rest) = .ok (.unknown op, rest) ∧
    ∃ t, exec (.unknown op) s = .next t ∧ t.pc.toNat = (s.pc.toNat + 1) % 65536
      ∧ t.a = s.a ∧ t.x = s.x ∧ t.y = s.y ∧ t.s = s.s ∧ t.p = s.p ∧ SameMemory s t
      ∧ t.runState = s.runState

/-- A region filled with one unknown byte is walked one byte per step, for any number of steps, and nothing
but `pc` and `icount` changes (44_control.md, R111 corner case 2; 95_test_vectors.md S6). That the no-ops are
counted follows the spec's decision D5 (log entry 4). -/
def Obligations.UnknownBytesAreWalkedOneByOne : Prop :=
  ∀ (n : Nat) (op : Byte) (s : State), s.runState = .running → ListedUnknown op.toNat →
    (∀ k, k < n → readByte s (s.pc + BitVec.ofNat 16 k) = op) →
    Reaches n s { s with pc := s.pc + BitVec.ofNat 16 n, icount := s.icount + n }

/-! ### Register transfers (45_transfer.md) -/

/-- R115: TAX. -/
def Obligations.TaxCopiesAToX : Prop :=
  ∀ s : State, encode .tax = [0xAA] ∧
    ∃ t, exec .tax s = .next t ∧ t.x = s.a ∧ MovedNZ s.a s.p t.p
      ∧ t.a = s.a ∧ t.y = s.y ∧ t.s = s.s ∧ SameMemory s t ∧ Retired 1 s t

/-- R116: TXA. -/
def Obligations.TxaCopiesXToA : Prop :=
  ∀ s : State, encode .txa = [0x8A] ∧
    ∃ t, exec .txa s = .next t ∧ t.a = s.x ∧ MovedNZ s.x s.p t.p
      ∧ t.x = s.x ∧ t.y = s.y ∧ t.s = s.s ∧ SameMemory s t ∧ Retired 1 s t

/-- R117: TAY. -/
def Obligations.TayCopiesAToY : Prop :=
  ∀ s : State, encode .tay = [0xA8] ∧
    ∃ t, exec .tay s = .next t ∧ t.y = s.a ∧ MovedNZ s.a s.p t.p
      ∧ t.a = s.a ∧ t.x = s.x ∧ t.s = s.s ∧ SameMemory s t ∧ Retired 1 s t

/-- R118: TYA. -/
def Obligations.TyaCopiesYToA : Prop :=
  ∀ s : State, encode .tya = [0x98] ∧
    ∃ t, exec .tya s = .next t ∧ t.a = s.y ∧ MovedNZ s.y s.p t.p
      ∧ t.x = s.x ∧ t.y = s.y ∧ t.s = s.s ∧ SameMemory s t ∧ Retired 1 s t

/-- TAX then TXA, and TAY then TYA, restore `a`; the pair leaves N and Z describing `a`, and advances `pc`
and the count by 2 (45_transfer.md R119). -/
def Obligations.TransferPairsRestoreA : Prop :=
  ∀ s : State,
    (∃ t u, exec .tax s = .next t ∧ exec .txa t = .next u ∧ u.a = s.a ∧ u.x = s.a ∧ u.y = s.y
      ∧ u.s = s.s ∧ MovedNZ s.a s.p u.p ∧ SameMemory s u ∧ u.pc.toNat = (s.pc.toNat + 2) % 65536
      ∧ u.icount = s.icount + 2)
    ∧ (∃ t u, exec .tay s = .next t ∧ exec .tya t = .next u ∧ u.a = s.a ∧ u.y = s.a ∧ u.x = s.x
      ∧ u.s = s.s ∧ MovedNZ s.a s.p u.p ∧ SameMemory s u ∧ u.pc.toNat = (s.pc.toNat + 2) % 65536
      ∧ u.icount = s.icount + 2)

/-! ### Rules of every instruction (10_state.md) -/

/-- R17: an instruction changes only the bits of `p` in its "Flags touched" entry. -/
def Obligations.OnlyDocumentedFlagsChange : Prop :=
  ∀ (i : Instr) (s : State), ∃ t, exec i s = .next t
    ∧ ∀ k, k ∉ touchedBits i → t.p.getLsbD k = s.p.getLsbD k

/-- The read column of R12 (derived there from the instruction rules): two states that agree on `pc`, the
count and what the instruction's row reads (its source register, its addressed byte, and C for ADC) are led
to states that agree on `pc`, the count and what its row writes. -/
def Obligations.ResultsDependOnlyOnTheReadColumn : Prop :=
  ∀ (i : Instr) (s u : State), u.pc = s.pc → u.icount = s.icount →
    (∀ r, sourceReg i = some r → readReg r u = readReg r s) →
    (∀ addr, loadAddr i = some addr → readByte u addr = readByte s addr) →
    (∀ addr, i = .adc addr → u.p.getLsbD 0 = s.p.getLsbD 0) →
    ∃ t v, exec i s = .next t ∧ exec i u = .next v ∧ v.pc = t.pc ∧ v.icount = t.icount
      ∧ (∀ r, writtenReg i = some r → readReg r v = readReg r t)
      ∧ (∀ k, k ∈ touchedBits i → v.p.getLsbD k = t.p.getLsbD k)
      ∧ (∀ addr, storeAddr i = some addr → readByte v addr = readByte t addr)
      ∧ (i = .rts → v.runState = t.runState)

/-- No run, however long, changes `s` or bits 5, 4 and 2 of `p`, and none turns D on (10_state.md R15, R22,
R23; that these are plain storage is the spec's decision D13, log entry 11). -/
def Obligations.NoRunChangesUnusedState : Prop :=
  ∀ (n : Nat) (s t : State), Reaches n s t →
    t.s = s.s ∧ t.p.getLsbD 5 = s.p.getLsbD 5 ∧ t.p.getLsbD 4 = s.p.getLsbD 4
      ∧ t.p.getLsbD 2 = s.p.getLsbD 2 ∧ (s.p.getLsbD 3 = false → t.p.getLsbD 3 = false)

/-! ### The step (40_engine_cycle.md) -/

/-- When RUNNING, the step is the meaning of the instruction that the bytes at `pc` decode to: nothing is
added around `exec`, which advances `pc` and the count itself (R70 to R74). The three addresses wrap (the
spec's decision D4, log entry 3). -/
def Obligations.StepRunsTheDecodedInstruction : Prop :=
  ∀ (s : State) (i : Instr) (rest : List Byte), s.runState = .running →
    decode [readByte s s.pc, readByte s (s.pc + 1), readByte s (s.pc + 2)] = .ok (i, rest) →
    step s = exec i s

/-- Every step advances `pc` by the length R56 gives the byte at `pc`, modulo 65536, and the count by 1. For
RTS the advance is the spec's decision D3 (log entry 2), and the counting of unknown opcodes follows D5 (log
entry 4). -/
def Obligations.EveryStepAdvancesPcAndCount : Prop :=
  ∀ s : State, s.runState = .running → ∃ t, step s = .next t
    ∧ t.pc.toNat = (s.pc.toNat + listedLength (readByte s s.pc)) % 65536 ∧ t.icount = s.icount + 1

/-- R77: the step ends HALTED exactly when the byte fetched as its opcode is 0x60. -/
def Obligations.StepHaltsExactlyOnOpcodeRts : Prop :=
  ∀ s : State, s.runState = .running → ∃ t, step s = .next t
    ∧ (readByte s s.pc = 0x60 → t.runState = .halted)
    ∧ (readByte s s.pc ≠ 0x60 → t.runState = .running)

/-- HALTED freezes everything (R78). The rule is the spec's decision D7, and that the model's step answers
the same state there is the model's choice (log entry 6). -/
def Obligations.HaltedEngineChangesNothing : Prop :=
  ∀ (n : Nat) (s : State), s.runState = .halted → Reaches n s s

/-- A step writes at most one byte of memory: the stores write their register to the address in their operand
bytes, and every other instruction leaves all of memory as it was (R12, R37, R45). The operand bytes are those
before the store, even where the store hits them; their addresses wrap (the spec's decision D4, log entry
3). -/
def Obligations.OnlyStoresWriteMemoryAndOneByte : Prop :=
  ∀ s : State, s.runState = .running → ∃ t, step s = .next t ∧
    (if readByte s s.pc = 0x8E then WroteByte s t (operandAddr s) s.x
     else if readByte s s.pc = 0x8C then WroteByte s t (operandAddr s) s.y
     else if readByte s s.pc = 0x8D then WroteByte s t (operandAddr s) s.a
     else SameMemory s t)

/-- A byte just stored is the byte the very next step fetches as its opcode (R43, derived there from R30, R37
and R40). The addresses wrap (the spec's decision D4, log entry 3). -/
def Obligations.StoredByteIsFetchedByTheNextStep : Prop :=
  ∀ (s : State) (i : Instr) (rest : List Byte), s.runState = .running →
    decode [s.a, readByte s (s.pc + 4), readByte s (s.pc + 5)] = .ok (i, rest) →
    ∃ t, exec (.sta (s.pc + 3)) s = .next t ∧ step t = exec i t

/-- Operand bytes past the top of memory come from its bottom (R36): the spec's decision D4, log entry 3. -/
def Obligations.OperandFetchWrapsAtTheTopOfMemory : Prop :=
  (∀ s : State, s.runState = .running → s.pc = 0xFFFF → readByte s 0xFFFF = 0xA9 →
    ∃ t, step s = .next t ∧ t.a = readByte s 0x0000 ∧ t.pc = 0x0001)
  ∧ (∀ s : State, s.runState = .running → s.pc = 0xFFFE → readByte s 0xFFFE = 0xAE →
    ∃ t, step s = .next t ∧ t.pc = 0x0001
      ∧ ∀ addr : Addr, addr.toNat = (readByte s 0x0000).toNat * 256 + (readByte s 0xFFFF).toNat →
          t.x = readByte s addr)

/-! ### Runs (40_engine_cycle.md, 70_reset_and_hazards.md) -/

/-- No input whatever makes the core fail: from any state, no number of steps ends in a fault or a refusal
(R83 and R120; the spec's decision D10, log entry 9). -/
def Obligations.EveryRunIsSafe : Prop := ∀ s : State, Safe s

/-- A run none of whose first `n` steps fetches 0x60 as its opcode is still RUNNING after them and has
counted them all (R77, R80; the counting of unknown opcodes follows D5, log entry 4). -/
def Obligations.RunWithoutRtsGoesOn : Prop :=
  ∀ (n : Nat) (s : State), s.runState = .running →
    (∀ k t, k < n → Reaches k s t → readByte t t.pc ≠ 0x60) →
    ∃ t, Reaches n s t ∧ t.runState = .running ∧ t.icount = s.icount + n

/-- The first step that fetches 0x60 as its opcode ends the run: from then on the engine is HALTED for good,
the count is the number of steps with the halting one included, and registers and memory stay as they were
(R144, R145). The final `pc` is the spec's decision D3 (log entry 2), the freeze D7 (log entry 6), and the
counting of unknown opcodes D5 (log entry 4). -/
def Obligations.RunEndsAtTheFirstRts : Prop :=
  ∀ (n : Nat) (s t : State), Reaches n s t → t.runState = .running → readByte t t.pc = 0x60 →
    ∃ u, u.runState = .halted ∧ u.icount = s.icount + n + 1 ∧ u.a = t.a ∧ u.x = t.x ∧ u.y = t.y
      ∧ u.s = t.s ∧ u.p = t.p ∧ SameMemory t u ∧ u.pc.toNat = (t.pc.toNat + 1) % 65536
      ∧ ∀ k, Reaches (n + 1 + k) s u

/-! ### Memory (20_memory.md) -/

/-- R32: `MemWrite` sets one cell and leaves every other cell and every register; `MemRead` gives the cell. -/
def Obligations.MemWriteSetsOneCell : Prop :=
  ∀ (s : State) (addr : Addr) (v : Byte), WroteByte s (writeByte addr v s) addr v
    ∧ (writeByte addr v s).a = s.a ∧ (writeByte addr v s).x = s.x ∧ (writeByte addr v s).y = s.y
    ∧ (writeByte addr v s).s = s.s ∧ (writeByte addr v s).p = s.p ∧ (writeByte addr v s).pc = s.pc
    ∧ (writeByte addr v s).runState = s.runState ∧ (writeByte addr v s).icount = s.icount

/-- Every step keeps memory in its canonical form (the model's representation, log entry 7). -/
def Obligations.StepKeepsMemoryCanonical : Prop :=
  ∀ s t : State, dataInv s → step s = .next t → dataInv t

/-- Every host action keeps memory in its canonical form (the model's representation, log entry 7). -/
def Obligations.HostActionKeepsMemoryCanonical : Prop :=
  ∀ (h : HostAction) (s t : State), dataInv s → hostAct h s = .next t → dataInv t

/-! ### Reset, load, START and the host (70_reset_and_hazards.md) -/

/-- RESET leaves `a=x=y=p=s=0` and every memory cell 0 (R28, R140). That the count is 0 is the spec's decision
D5 (log entry 4), and that the run state is HALTED its decision D6 (log entry 5). That the memory is canonical
is no rule of the spec: it is the model's representation (log entry 7). Nothing is said of `pc`, which has no
specified value after RESET (log entry 1). -/
def Obligations.ResetZeroesRegistersAndMemory : Prop :=
  State.reset.a = 0 ∧ State.reset.x = 0 ∧ State.reset.y = 0 ∧ State.reset.s = 0 ∧ State.reset.p = 0
    ∧ (∀ addr, readByte State.reset addr = 0) ∧ State.reset.icount = 0
    ∧ State.reset.runState = .halted ∧ dataInv State.reset

/-- START presets `pc`, zeroes the count and sets RUNNING, and the next step executes the instruction at the
load address; registers and memory carry over (R142, R145; the event is the spec's decision D6, the count D5
and the second START D7, log entries 5, 4 and 8). At load addresses 0xFFFE and 0xFFFF the operand bytes come
from the bottom of memory: the spec's decision D4, log entry 3. -/
def Obligations.StartBeginsARunAtTheLoadAddress : Prop :=
  ∀ (loadAddress : Addr) (s : State) (i : Instr) (rest : List Byte), s.runState = .halted →
    decode [readByte s loadAddress, readByte s (loadAddress + 1), readByte s (loadAddress + 2)]
      = .ok (i, rest) →
    ∃ t, hostAct (.start loadAddress) s = .next t ∧ t.pc = loadAddress ∧ t.icount = 0
      ∧ t.runState = .running ∧ t.a = s.a ∧ t.x = s.x ∧ t.y = s.y ∧ t.s = s.s ∧ t.p = s.p
      ∧ SameMemory s t ∧ step t = exec i t

/-- Loading puts the bytes at consecutive addresses and changes nothing else (R46, R63, R141); that the
addresses wrap past 65535 is the model's choice (log entry 8). -/
def Obligations.LoadPlacesBytesConsecutively : Prop :=
  ∀ (bytes : List Byte) (addr : Addr) (s : State), s.runState = .halted → bytes.length ≤ 65536 →
    ∃ t, hostAct (.load addr bytes) s = .next t
      ∧ (∀ (k : Nat) (v : Byte), bytes[k]? = some v → readByte t (addr + BitVec.ofNat 16 k) = v)
      ∧ (∀ other, (∀ k, k < bytes.length → other ≠ addr + BitVec.ofNat 16 k) →
          readByte t other = readByte s other)
      ∧ t.a = s.a ∧ t.x = s.x ∧ t.y = s.y ∧ t.s = s.s ∧ t.p = s.p ∧ t.pc = s.pc
      ∧ t.icount = s.icount ∧ t.runState = .halted

/-- While the engine is RUNNING the host can do nothing and sees nothing (R6; the spec's decision D12, and
the model's way of saying it, log entry 8). -/
def Obligations.HostHasNoMoveWhileRunning : Prop :=
  ∀ (h : HostAction) (s : State), s.runState = .running →
    hostAct h s = .refused .hostExcluded ∧ hostView s = .refused .hostExcluded

/-! ### Encoding (30_encoding.md) -/

/-- Decoding the encoding of a well-formed instruction, whatever bytes follow, gives it back. -/
def Obligations.DecodeOfEncodeIsTheInstruction : Prop :=
  ∀ (i : Instr) (rest : List Byte), i.wellFormed = true → decode (encode i ++ rest) = .ok (i, rest)

/-- What decodes is well formed, and its encoding is the bytes it was decoded from. -/
def Obligations.EncodeOfDecodeIsTheBytes : Prop :=
  ∀ (bytes : List Byte) (i : Instr) (rest : List Byte), decode bytes = .ok (i, rest) →
    i.wellFormed = true ∧ encode i ++ rest = bytes

/-- The 16 opcode bytes of R55, each with its mnemonic and format. -/
def Obligations.TableBytesDecodeToTheirInstructions : Prop :=
  ∀ b c : Byte,
    decode [0xAE, b, c] = .ok (.ldx (addrOfBytes b c), [])
    ∧ decode [0xA2, b, c] = .ok (.ldxim b, [c])
    ∧ decode [0x8E, b, c] = .ok (.stx (addrOfBytes b c), [])
    ∧ decode [0xAC, b, c] = .ok (.ldy (addrOfBytes b c), [])
    ∧ decode [0xA0, b, c] = .ok (.ldyim b, [c])
    ∧ decode [0x8C, b, c] = .ok (.sty (addrOfBytes b c), [])
    ∧ decode [0xA9, b, c] = .ok (.ldaim b, [c])
    ∧ decode [0x6D, b, c] = .ok (.adc (addrOfBytes b c), [])
    ∧ decode [0x8D, b, c] = .ok (.sta (addrOfBytes b c), [])
    ∧ decode [0xD8, b, c] = .ok (.cld, [b, c])
    ∧ decode [0x18, b, c] = .ok (.clc, [b, c])
    ∧ decode [0x60, b, c] = .ok (.rts, [b, c])
    ∧ decode [0xAA, b, c] = .ok (.tax, [b, c])
    ∧ decode [0x8A, b, c] = .ok (.txa, [b, c])
    ∧ decode [0xA8, b, c] = .ok (.tay, [b, c])
    ∧ decode [0x98, b, c] = .ok (.tya, [b, c])

/-- R56: the first byte alone decides the length, 3, 2 or 1 as listed, and every byte decodes. -/
def Obligations.FirstByteDecidesTheLength : Prop :=
  ∀ (op b c : Byte) (rest : List Byte), ∃ i,
    decode (op :: b :: c :: rest) = .ok (i, (op :: b :: c :: rest).drop (listedLength op))

/-- R34: byte 2 is the low half of the address and byte 3 the high half, in all six `Absolute16`
instructions, read and written alike. -/
def Obligations.AddressesAreLittleEndian : Prop :=
  ∀ lo hi : Byte, ∃ addr : Addr, addr.toNat = hi.toNat * 256 + lo.toNat
    ∧ ∀ row ∈ [((0xAE : Byte), Instr.ldx), (0x8E, Instr.stx), (0xAC, Instr.ldy), (0x8C, Instr.sty),
        (0x6D, Instr.adc), (0x8D, Instr.sta)],
      decode [row.1, lo, hi] = .ok (row.2 addr, []) ∧ encode (row.2 addr) = [row.1, lo, hi]

/-- Only the 240 bytes of R57 decode to the no-op: the table's 16 never do (R55, R59). -/
def Obligations.NoTableByteDecodesToTheNoOp : Prop :=
  ∀ (op u : Byte) (tail rest : List Byte), decode (op :: tail) = .ok (.unknown u, rest) →
    ListedUnknown op.toNat ∧ u = op ∧ rest = tail

/-- R61: the bytes each mnemonic and operand of the assembly text stand for; a `#` before a literal is not
read as one. -/
def Obligations.MnemonicsEmitTheirBytes : Prop :=
  (∀ n, n < 65536 →
    let lo := BitVec.ofNat 8 (n % 256)
    let hi := BitVec.ofNat 8 (n / 256)
    emitMnemonic ['L', 'D', 'X'] (some n) = .ok [0xAE, lo, hi]
    ∧ emitMnemonic ['S', 'T', 'X'] (some n) = .ok [0x8E, lo, hi]
    ∧ emitMnemonic ['L', 'D', 'Y'] (some n) = .ok [0xAC, lo, hi]
    ∧ emitMnemonic ['S', 'T', 'Y'] (some n) = .ok [0x8C, lo, hi]
    ∧ emitMnemonic ['A', 'D', 'C'] (some n) = .ok [0x6D, lo, hi]
    ∧ emitMnemonic ['S', 'T', 'A'] (some n) = .ok [0x8D, lo, hi])
  ∧ (∀ n, n < 256 →
    emitMnemonic ['L', 'D', 'X', 'I', 'M'] (some n) = .ok [0xA2, BitVec.ofNat 8 n]
    ∧ emitMnemonic ['L', 'D', 'Y', 'I', 'M'] (some n) = .ok [0xA0, BitVec.ofNat 8 n]
    ∧ emitMnemonic ['L', 'D', 'A', 'I', 'M'] (some n) = .ok [0xA9, BitVec.ofNat 8 n])
  ∧ emitMnemonic ['C', 'L', 'D'] none = .ok [0xD8] ∧ emitMnemonic ['C', 'L', 'C'] none = .ok [0x18]
  ∧ emitMnemonic ['R', 'T', 'S'] none = .ok [0x60] ∧ emitMnemonic ['T', 'A', 'X'] none = .ok [0xAA]
  ∧ emitMnemonic ['T', 'X', 'A'] none = .ok [0x8A] ∧ emitMnemonic ['T', 'A', 'Y'] none = .ok [0xA8]
  ∧ emitMnemonic ['T', 'Y', 'A'] none = .ok [0x98]
  ∧ (∀ cs, decimalValue ('#' :: cs) = none)
end

