-- ==== Sys2Proof/Laws/Decode.lean ====
section
/-! SUPPORT. The decoder's table and the operand bytes. -/

namespace Sys2Proof

/-- The two operand bytes make `hi * 256 + lo` (R34). -/
theorem toNat_addrOfBytes (lo hi : Byte) : (addrOfBytes lo hi).toNat = hi.toNat * 256 + lo.toNat := by
  have := lo.isLt
  simp only [addrOfBytes, BitVec.toNat_append]
  rw [← Nat.shiftLeft_add_eq_or_of_lt this, Nat.shiftLeft_eq]

theorem toNat_loByte (addr : Addr) : (loByte addr).toNat = addr.toNat % 256 := by
  simp [loByte, BitVec.extractLsb'_toNat]

theorem toNat_hiByte (addr : Addr) : (hiByte addr).toNat = addr.toNat / 256 := by
  have := addr.isLt
  simp [hiByte, BitVec.extractLsb'_toNat, Nat.shiftRight_eq_div_pow]
  omega

@[simp] theorem addrOfBytes_lo_hi (addr : Addr) : addrOfBytes (loByte addr) (hiByte addr) = addr := by
  apply BitVec.eq_of_toNat_eq
  rw [toNat_addrOfBytes, toNat_loByte, toNat_hiByte]
  omega

@[simp] theorem loByte_addrOfBytes (lo hi : Byte) : loByte (addrOfBytes lo hi) = lo := by
  apply BitVec.eq_of_toNat_eq
  have := lo.isLt
  rw [toNat_loByte, toNat_addrOfBytes]
  omega

@[simp] theorem hiByte_addrOfBytes (lo hi : Byte) : hiByte (addrOfBytes lo hi) = hi := by
  apply BitVec.eq_of_toNat_eq
  have := lo.isLt
  rw [toNat_hiByte, toNat_addrOfBytes]
  omega

/-- A byte the table does not list is the unknown-opcode no-op (R57, R72). -/
theorem entryOf_unlisted {op : Byte} (h : lookupEntry op opcodeTable = Option.none) :
    entryOf op = .none (.unknown op) := by
  simp [entryOf, h]

/-- Everything the opcode byte can decode to: one of the 16 rows, or the no-op (R59, R72). -/
theorem entryOf_cases (op : Byte) :
    (op = opcodeLdx ∧ entryOf op = .absolute16 .ldx)
    ∨ (op = opcodeLdxim ∧ entryOf op = .immediate8 .ldxim)
    ∨ (op = opcodeStx ∧ entryOf op = .absolute16 .stx)
    ∨ (op = opcodeLdy ∧ entryOf op = .absolute16 .ldy)
    ∨ (op = opcodeLdyim ∧ entryOf op = .immediate8 .ldyim)
    ∨ (op = opcodeSty ∧ entryOf op = .absolute16 .sty)
    ∨ (op = opcodeLdaim ∧ entryOf op = .immediate8 .ldaim)
    ∨ (op = opcodeAdc ∧ entryOf op = .absolute16 .adc)
    ∨ (op = opcodeSta ∧ entryOf op = .absolute16 .sta)
    ∨ (op = opcodeCld ∧ entryOf op = .none .cld)
    ∨ (op = opcodeClc ∧ entryOf op = .none .clc)
    ∨ (op = opcodeRts ∧ entryOf op = .none .rts)
    ∨ (op = opcodeTax ∧ entryOf op = .none .tax)
    ∨ (op = opcodeTxa ∧ entryOf op = .none .txa)
    ∨ (op = opcodeTay ∧ entryOf op = .none .tay)
    ∨ (op = opcodeTya ∧ entryOf op = .none .tya)
    ∨ (lookupEntry op opcodeTable = Option.none ∧ entryOf op = .none (.unknown op)) := by
  by_cases h : lookupEntry op opcodeTable = Option.none
  · simp [h, entryOf_unlisted h]
  · have hlisted : op = opcodeLdx ∨ op = opcodeLdxim ∨ op = opcodeStx ∨ op = opcodeLdy ∨ op = opcodeLdyim
        ∨ op = opcodeSty ∨ op = opcodeLdaim ∨ op = opcodeAdc ∨ op = opcodeSta ∨ op = opcodeCld
        ∨ op = opcodeClc ∨ op = opcodeRts ∨ op = opcodeTax ∨ op = opcodeTxa ∨ op = opcodeTay
        ∨ op = opcodeTya := by
      by_contra hno
      simp only [not_or] at hno
      obtain ⟨h1, h2, h3, h4, h5, h6, h7, h8, h9, h10, h11, h12, h13, h14, h15, h16⟩ := hno
      refine h ?_
      simp only [opcodeTable, lookupEntry]
      rw [if_neg (Ne.symm h1), if_neg (Ne.symm h2), if_neg (Ne.symm h3), if_neg (Ne.symm h4),
        if_neg (Ne.symm h5), if_neg (Ne.symm h6), if_neg (Ne.symm h7), if_neg (Ne.symm h8),
        if_neg (Ne.symm h9), if_neg (Ne.symm h10), if_neg (Ne.symm h11), if_neg (Ne.symm h12),
        if_neg (Ne.symm h13), if_neg (Ne.symm h14), if_neg (Ne.symm h15), if_neg (Ne.symm h16)]
    rcases hlisted with h | h | h | h | h | h | h | h | h | h | h | h | h | h | h | h <;> subst h <;>
      simp only [show entryOf opcodeLdx = .absolute16 .ldx from rfl,
        show entryOf opcodeLdxim = .immediate8 .ldxim from rfl,
        show entryOf opcodeStx = .absolute16 .stx from rfl,
        show entryOf opcodeLdy = .absolute16 .ldy from rfl,
        show entryOf opcodeLdyim = .immediate8 .ldyim from rfl,
        show entryOf opcodeSty = .absolute16 .sty from rfl,
        show entryOf opcodeLdaim = .immediate8 .ldaim from rfl,
        show entryOf opcodeAdc = .absolute16 .adc from rfl,
        show entryOf opcodeSta = .absolute16 .sta from rfl,
        show entryOf opcodeCld = .none .cld from rfl,
        show entryOf opcodeClc = .none .clc from rfl,
        show entryOf opcodeRts = .none .rts from rfl,
        show entryOf opcodeTax = .none .tax from rfl,
        show entryOf opcodeTxa = .none .txa from rfl,
        show entryOf opcodeTay = .none .tay from rfl,
        show entryOf opcodeTya = .none .tya from rfl, and_self, true_or, or_true]

end Sys2Proof
end

