-- ==== Sys2Proof/Laws/State.lean ====
section
/-! SUPPORT. What each shared operation leaves in each field of State, one lemma per field per update, so
that no proof unfolds a record update. -/

namespace Sys2Proof.Machine

variable (s : State) (addr : Addr) (v : Byte) (r : Reg) (f : Flag) (length : Nat)

/-! ### writeByte -/

@[simp] theorem writeByte_a : (writeByte addr v s).a = s.a := rfl
@[simp] theorem writeByte_x : (writeByte addr v s).x = s.x := rfl
@[simp] theorem writeByte_y : (writeByte addr v s).y = s.y := rfl
@[simp] theorem writeByte_s : (writeByte addr v s).s = s.s := rfl
@[simp] theorem writeByte_p : (writeByte addr v s).p = s.p := rfl
@[simp] theorem writeByte_pc : (writeByte addr v s).pc = s.pc := rfl
@[simp] theorem writeByte_runState : (writeByte addr v s).runState = s.runState := rfl
@[simp] theorem writeByte_icount : (writeByte addr v s).icount = s.icount := rfl
theorem writeByte_mem : (writeByte addr v s).mem = Memory.write s.mem addr.toNat v := rfl

/-! ### writeReg -/

@[simp] theorem writeReg_a_a : (writeReg .a v s).a = v := rfl
@[simp] theorem writeReg_a_x : (writeReg .a v s).x = s.x := rfl
@[simp] theorem writeReg_a_y : (writeReg .a v s).y = s.y := rfl
@[simp] theorem writeReg_x_a : (writeReg .x v s).a = s.a := rfl
@[simp] theorem writeReg_x_x : (writeReg .x v s).x = v := rfl
@[simp] theorem writeReg_x_y : (writeReg .x v s).y = s.y := rfl
@[simp] theorem writeReg_y_a : (writeReg .y v s).a = s.a := rfl
@[simp] theorem writeReg_y_x : (writeReg .y v s).x = s.x := rfl
@[simp] theorem writeReg_y_y : (writeReg .y v s).y = v := rfl
@[simp] theorem writeReg_s : (writeReg r v s).s = s.s := by cases r <;> rfl
@[simp] theorem writeReg_p : (writeReg r v s).p = s.p := by cases r <;> rfl
@[simp] theorem writeReg_pc : (writeReg r v s).pc = s.pc := by cases r <;> rfl
@[simp] theorem writeReg_mem : (writeReg r v s).mem = s.mem := by cases r <;> rfl
@[simp] theorem writeReg_runState : (writeReg r v s).runState = s.runState := by cases r <;> rfl
@[simp] theorem writeReg_icount : (writeReg r v s).icount = s.icount := by cases r <;> rfl

/-! ### retire and halt -/

@[simp] theorem retire_a : (retire length s).a = s.a := rfl
@[simp] theorem retire_x : (retire length s).x = s.x := rfl
@[simp] theorem retire_y : (retire length s).y = s.y := rfl
@[simp] theorem retire_s : (retire length s).s = s.s := rfl
@[simp] theorem retire_p : (retire length s).p = s.p := rfl
@[simp] theorem retire_pc : (retire length s).pc = s.pc + BitVec.ofNat 16 length := rfl
@[simp] theorem retire_mem : (retire length s).mem = s.mem := rfl
@[simp] theorem retire_runState : (retire length s).runState = s.runState := rfl
@[simp] theorem retire_icount : (retire length s).icount = s.icount + 1 := rfl

@[simp] theorem halt_a : (halt s).a = s.a := rfl
@[simp] theorem halt_x : (halt s).x = s.x := rfl
@[simp] theorem halt_y : (halt s).y = s.y := rfl
@[simp] theorem halt_s : (halt s).s = s.s := rfl
@[simp] theorem halt_p : (halt s).p = s.p := rfl
@[simp] theorem halt_pc : (halt s).pc = s.pc := rfl
@[simp] theorem halt_mem : (halt s).mem = s.mem := rfl
@[simp] theorem halt_runState : (halt s).runState = .halted := rfl
@[simp] theorem halt_icount : (halt s).icount = s.icount := rfl

/-! ### setNZ and clearFlag -/

@[simp] theorem setNZ_a : (setNZ v s).a = s.a := rfl
@[simp] theorem setNZ_x : (setNZ v s).x = s.x := rfl
@[simp] theorem setNZ_y : (setNZ v s).y = s.y := rfl
@[simp] theorem setNZ_s : (setNZ v s).s = s.s := rfl
@[simp] theorem setNZ_p :
    (setNZ v s).p = writeFlag .z (zeroOf v) (writeFlag .n (negativeOf v) s.p) := rfl
@[simp] theorem setNZ_pc : (setNZ v s).pc = s.pc := rfl
@[simp] theorem setNZ_mem : (setNZ v s).mem = s.mem := rfl
@[simp] theorem setNZ_runState : (setNZ v s).runState = s.runState := rfl
@[simp] theorem setNZ_icount : (setNZ v s).icount = s.icount := rfl

@[simp] theorem clearFlag_a : (clearFlag f s).a = s.a := rfl
@[simp] theorem clearFlag_x : (clearFlag f s).x = s.x := rfl
@[simp] theorem clearFlag_y : (clearFlag f s).y = s.y := rfl
@[simp] theorem clearFlag_s : (clearFlag f s).s = s.s := rfl
@[simp] theorem clearFlag_p : (clearFlag f s).p = writeFlag f false s.p := rfl
@[simp] theorem clearFlag_pc : (clearFlag f s).pc = s.pc := rfl
@[simp] theorem clearFlag_mem : (clearFlag f s).mem = s.mem := rfl
@[simp] theorem clearFlag_runState : (clearFlag f s).runState = s.runState := rfl
@[simp] theorem clearFlag_icount : (clearFlag f s).icount = s.icount := rfl

/-! ### loadReg and storeReg -/

@[simp] theorem loadReg_a_a : (loadReg .a v s).a = v := rfl
@[simp] theorem loadReg_a_x : (loadReg .a v s).x = s.x := rfl
@[simp] theorem loadReg_a_y : (loadReg .a v s).y = s.y := rfl
@[simp] theorem loadReg_x_a : (loadReg .x v s).a = s.a := rfl
@[simp] theorem loadReg_x_x : (loadReg .x v s).x = v := rfl
@[simp] theorem loadReg_x_y : (loadReg .x v s).y = s.y := rfl
@[simp] theorem loadReg_y_a : (loadReg .y v s).a = s.a := rfl
@[simp] theorem loadReg_y_x : (loadReg .y v s).x = s.x := rfl
@[simp] theorem loadReg_y_y : (loadReg .y v s).y = v := rfl
@[simp] theorem loadReg_s : (loadReg r v s).s = s.s := by simp [loadReg]
@[simp] theorem loadReg_p :
    (loadReg r v s).p = writeFlag .z (zeroOf v) (writeFlag .n (negativeOf v) s.p) := by simp [loadReg]
@[simp] theorem loadReg_pc : (loadReg r v s).pc = s.pc := by simp [loadReg]
@[simp] theorem loadReg_mem : (loadReg r v s).mem = s.mem := by simp [loadReg]
@[simp] theorem loadReg_runState : (loadReg r v s).runState = s.runState := by simp [loadReg]
@[simp] theorem loadReg_icount : (loadReg r v s).icount = s.icount := by simp [loadReg]

@[simp] theorem storeReg_a : (storeReg r addr s).a = s.a := rfl
@[simp] theorem storeReg_x : (storeReg r addr s).x = s.x := rfl
@[simp] theorem storeReg_y : (storeReg r addr s).y = s.y := rfl
@[simp] theorem storeReg_s : (storeReg r addr s).s = s.s := rfl
@[simp] theorem storeReg_p : (storeReg r addr s).p = s.p := rfl
@[simp] theorem storeReg_pc : (storeReg r addr s).pc = s.pc := rfl
@[simp] theorem storeReg_runState : (storeReg r addr s).runState = s.runState := rfl
@[simp] theorem storeReg_icount : (storeReg r addr s).icount = s.icount := rfl
theorem storeReg_mem :
    (storeReg r addr s).mem = Memory.write s.mem addr.toNat (readReg r s) := rfl

/-! ### addWithCarry -/

@[simp] theorem addWithCarry_a :
    (addWithCarry v s).a = adcResult s.a v (readFlag .c s.p) := rfl
@[simp] theorem addWithCarry_x : (addWithCarry v s).x = s.x := rfl
@[simp] theorem addWithCarry_y : (addWithCarry v s).y = s.y := rfl
@[simp] theorem addWithCarry_s : (addWithCarry v s).s = s.s := rfl
@[simp] theorem addWithCarry_p :
    (addWithCarry v s).p = adcFlags s.a v (readFlag .c s.p) s.p := rfl
@[simp] theorem addWithCarry_pc : (addWithCarry v s).pc = s.pc := rfl
@[simp] theorem addWithCarry_mem : (addWithCarry v s).mem = s.mem := rfl
@[simp] theorem addWithCarry_runState : (addWithCarry v s).runState = s.runState := rfl
@[simp] theorem addWithCarry_icount : (addWithCarry v s).icount = s.icount := rfl

/-! ### writeBytes -/

variable (bytes : List Byte)

@[simp] theorem writeBytes_a : (writeBytes addr bytes s).a = s.a := by
  induction bytes generalizing addr s with
  | nil => rfl
  | cons v vs ih => simp [writeBytes, ih]

@[simp] theorem writeBytes_x : (writeBytes addr bytes s).x = s.x := by
  induction bytes generalizing addr s with
  | nil => rfl
  | cons v vs ih => simp [writeBytes, ih]

@[simp] theorem writeBytes_y : (writeBytes addr bytes s).y = s.y := by
  induction bytes generalizing addr s with
  | nil => rfl
  | cons v vs ih => simp [writeBytes, ih]

@[simp] theorem writeBytes_s : (writeBytes addr bytes s).s = s.s := by
  induction bytes generalizing addr s with
  | nil => rfl
  | cons v vs ih => simp [writeBytes, ih]

@[simp] theorem writeBytes_p : (writeBytes addr bytes s).p = s.p := by
  induction bytes generalizing addr s with
  | nil => rfl
  | cons v vs ih => simp [writeBytes, ih]

@[simp] theorem writeBytes_pc : (writeBytes addr bytes s).pc = s.pc := by
  induction bytes generalizing addr s with
  | nil => rfl
  | cons v vs ih => simp [writeBytes, ih]

@[simp] theorem writeBytes_runState : (writeBytes addr bytes s).runState = s.runState := by
  induction bytes generalizing addr s with
  | nil => rfl
  | cons v vs ih => simp [writeBytes, ih]

@[simp] theorem writeBytes_icount : (writeBytes addr bytes s).icount = s.icount := by
  induction bytes generalizing addr s with
  | nil => rfl
  | cons v vs ih => simp [writeBytes, ih]

end Sys2Proof.Machine
end

