-- ==== Sys2Proof/Laws/Flags.lean ====
section
/-! SUPPORT. The bits of `p` after each flag write. -/

namespace Sys2Proof.Machine

/-- The eight flags stand at eight places (R16). -/
theorem flagIndex_lt (f : Flag) : flagIndex f < 8 := by cases f <;> decide

theorem flagIndex_injective {f g : Flag} (h : flagIndex f = flagIndex g) : f = g := by
  cases f <;> cases g <;> first | rfl | exact absurd h (by decide)

@[simp] theorem flagIndex_n : flagIndex .n = 7 := rfl
@[simp] theorem flagIndex_v : flagIndex .v = 6 := rfl
@[simp] theorem flagIndex_bit5 : flagIndex .bit5 = 5 := rfl
@[simp] theorem flagIndex_b : flagIndex .b = 4 := rfl
@[simp] theorem flagIndex_d : flagIndex .d = 3 := rfl
@[simp] theorem flagIndex_i : flagIndex .i = 2 := rfl
@[simp] theorem flagIndex_z : flagIndex .z = 1 := rfl
@[simp] theorem flagIndex_c : flagIndex .c = 0 := rfl

/-- A write to one bit of `p`: that bit is the value written, every other bit is as it was. -/
@[simp] theorem getLsbD_writeFlag (f : Flag) (v : Bool) (p : Byte) (k : Nat) :
    (writeFlag f v p).getLsbD k = if k = flagIndex f then v else p.getLsbD k := by
  have hf := flagIndex_lt f
  by_cases hk : k = flagIndex f
  · subst hk
    cases v <;> simp [writeFlag, flagMask, hf]
  · by_cases hk8 : k < 8
    · cases v <;> simp [writeFlag, flagMask, hk, hk8] <;> intros <;> omega
    · have h8 : 8 ≤ k := by omega
      simp [hk, BitVec.getLsbD_of_ge _ _ h8]

/-- The same for a bit within the byte. -/
@[simp] theorem getElem_writeFlag (f : Flag) (v : Bool) (p : Byte) (k : Nat) (hk : k < 8) :
    (writeFlag f v p)[k] = if k = flagIndex f then v else p[k] := by
  have h := getLsbD_writeFlag f v p k
  rwa [BitVec.getLsbD_eq_getElem hk, BitVec.getLsbD_eq_getElem hk] at h

@[simp] theorem readFlag_writeFlag_same (f : Flag) (v : Bool) (p : Byte) :
    readFlag f (writeFlag f v p) = v := by
  simp [readFlag, getLsbD_writeFlag]

theorem readFlag_writeFlag_of_ne {f g : Flag} (h : g ≠ f) (v : Bool) (p : Byte) :
    readFlag g (writeFlag f v p) = readFlag g p := by
  have : ¬ flagIndex g = flagIndex f := fun e => h (flagIndex_injective e)
  simp [readFlag, getLsbD_writeFlag, this]

/-- Every bit of `p` after `SetNZ(v)` (R79). -/
theorem getLsbD_setNZ (v : Byte) (s : State) (k : Nat) :
    (setNZ v s).p.getLsbD k
      = if k = 1 then decide (v = 0) else if k = 7 then v.getLsbD 7 else s.p.getLsbD k := by
  simp only [setNZ_p, getLsbD_writeFlag]
  rfl

/-- Every bit of `p` after a flag is cleared. -/
theorem getLsbD_clearFlag (f : Flag) (s : State) (k : Nat) :
    (clearFlag f s).p.getLsbD k = if k = flagIndex f then false else s.p.getLsbD k := by
  simp only [clearFlag_p, getLsbD_writeFlag]

/-- Every bit of `p` after ADC's flag writes (R100). -/
theorem getLsbD_adcFlags (a m : Byte) (cin : Bool) (p : Byte) (k : Nat) :
    (adcFlags a m cin p).getLsbD k
      = if k = 6 then adcOverflow a m cin
        else if k = 7 then (adcResult a m cin).getLsbD 7
        else if k = 1 then decide (adcResult a m cin = 0)
        else if k = 0 then adcCarry a m cin
        else p.getLsbD k := by
  simp only [adcFlags, getLsbD_writeFlag]
  rfl

/-- The same for a bit within the byte. -/
theorem getElem_adcFlags (a m : Byte) (cin : Bool) (p : Byte) (k : Nat) (hk : k < 8) :
    (adcFlags a m cin p)[k]
      = if k = 6 then adcOverflow a m cin
        else if k = 7 then (adcResult a m cin).getLsbD 7
        else if k = 1 then decide (adcResult a m cin = 0)
        else if k = 0 then adcCarry a m cin
        else p[k] := by
  have h := getLsbD_adcFlags a m cin p k
  rwa [BitVec.getLsbD_eq_getElem hk, BitVec.getLsbD_eq_getElem hk] at h

/-- ADC's result as a number (R100). -/
theorem toNat_adcResult (a m : Byte) (cin : Bool) :
    (adcResult a m cin).toNat = (a.toNat + m.toNat + cin.toNat) % 256 := by
  simp [adcResult, adcSum]

end Sys2Proof.Machine
end

