-- ==== Sys2Proof/Laws/HostPort.lean ====
section
/-! SUPPORT. What the host's functions answer, by the run state. -/

namespace Sys2Proof.Machine

theorem hostAct_of_halted {s : State} (h : s.runState = .halted) (action : HostAction) :
    hostAct action s = .next (hostEffect action s) := by
  simp [hostAct, h]

/-- A host action that answers a next state found the engine not RUNNING, and had its effect. -/
theorem hostAct_eq_next {action : HostAction} {s t : State} (h : hostAct action s = .next t) :
    s.runState = .halted ∧ t = hostEffect action s := by
  cases hr : s.runState with
  | running => simp [hostAct, hr] at h
  | halted =>
    rw [hostAct_of_halted hr] at h
    cases h
    exact ⟨rfl, rfl⟩

/-- From a HALTED state a launch is the load and then the START. -/
theorem hostLaunch_of_halted {s : State} (h : s.runState = .halted) (image : Image) :
    hostLaunch image s
      = .next (hostStart image.loadAddress (writeBytes image.loadAddress image.bytes s)) := by
  simp [hostLaunch, hostAct, hostEffect, h]

/-- A RUNNING engine takes no launch. -/
theorem hostLaunch_of_running {s : State} (h : s.runState = .running) (image : Image) :
    hostLaunch image s = .refused .hostExcluded := by
  simp [hostLaunch, hostAct, h]

@[simp] theorem hostStart_a (loadAddress : Addr) (s : State) : (hostStart loadAddress s).a = s.a := rfl
@[simp] theorem hostStart_x (loadAddress : Addr) (s : State) : (hostStart loadAddress s).x = s.x := rfl
@[simp] theorem hostStart_y (loadAddress : Addr) (s : State) : (hostStart loadAddress s).y = s.y := rfl
@[simp] theorem hostStart_s (loadAddress : Addr) (s : State) : (hostStart loadAddress s).s = s.s := rfl
@[simp] theorem hostStart_p (loadAddress : Addr) (s : State) : (hostStart loadAddress s).p = s.p := rfl
@[simp] theorem hostStart_pc (loadAddress : Addr) (s : State) :
    (hostStart loadAddress s).pc = loadAddress := rfl
@[simp] theorem hostStart_mem (loadAddress : Addr) (s : State) :
    (hostStart loadAddress s).mem = s.mem := rfl
@[simp] theorem hostStart_runState (loadAddress : Addr) (s : State) :
    (hostStart loadAddress s).runState = .running := rfl
@[simp] theorem hostStart_icount (loadAddress : Addr) (s : State) :
    (hostStart loadAddress s).icount = 0 := rfl

end Sys2Proof.Machine
end

