-- ==== Sys2Proof/Laws/Memory.lean ====
section
/-! SUPPORT. The memory laws: what a read gives after each operation, for every list of cells, canonical
or not, and that every operation keeps the canonical form. -/

namespace Sys2Proof.Machine

/-! ### Reading after an operation -/

theorem Memory.read_erase (m : Memory) (addr other : Nat) :
    Memory.read (Memory.erase m addr) other
      = if other = addr then Memory.unlisted else Memory.read m other := by
  induction m with
  | nil => simp [Memory.erase, Memory.read]
  | cons cell m ih =>
    by_cases hc : cell.1 = addr
    · by_cases ho : other = addr
      · simpa [Memory.erase, hc, ho] using ih
      · have : ¬ cell.1 = other := fun h => ho (h ▸ hc)
        simp [Memory.erase, Memory.read, hc, ho, ih]
        intro h
        exact absurd h.symm ho
    · by_cases ho : other = addr
      · subst ho
        simp [Memory.erase, Memory.read, hc, ih]
      · simp [Memory.erase, Memory.read, hc, ho, ih]

theorem Memory.read_insert (m : Memory) (addr : Nat) (v : Byte) (other : Nat)
    (hm : Memory.erase m addr = m) :
    Memory.read (Memory.insert m addr v) other
      = if other = addr then v else Memory.read m other := by
  induction m with
  | nil => simp [Memory.insert, Memory.read, eq_comm]
  | cons cell m ih =>
    have hc : ¬ cell.1 = addr := by
      intro h
      have hlen : ∀ n : Memory, (Memory.erase n addr).length ≤ n.length := by
        intro n
        induction n with
        | nil => simp [Memory.erase]
        | cons d n ihn => by_cases hd : d.1 = addr <;> simp [Memory.erase, hd] <;> omega
      have := hlen m
      rw [show Memory.erase (cell :: m) addr = Memory.erase m addr by simp [Memory.erase, h]] at hm
      rw [hm] at this
      simp at this
    have hm' : Memory.erase m addr = m := by simpa [Memory.erase, hc] using hm
    by_cases hlt : addr < cell.1
    · simp [Memory.insert, hlt, Memory.read, eq_comm]
    · by_cases ho : other = addr
      · subst ho
        simp [Memory.insert, hlt, Memory.read, hc, ih hm']
      · simp [Memory.insert, hlt, Memory.read, ho, ih hm']

theorem Memory.erase_erase (m : Memory) (addr : Nat) :
    Memory.erase (Memory.erase m addr) addr = Memory.erase m addr := by
  induction m with
  | nil => rfl
  | cons cell m ih =>
    by_cases hc : cell.1 = addr
    · simpa [Memory.erase, hc] using ih
    · simpa [Memory.erase, hc] using ih

/-- A read gives the byte just written there, and elsewhere what it gave before. -/
theorem Memory.read_write (m : Memory) (addr : Nat) (v : Byte) (other : Nat) :
    Memory.read (Memory.write m addr v) other
      = if other = addr then v else Memory.read m other := by
  by_cases hv : v = Memory.unlisted
  · simp [Memory.write, hv, Memory.read_erase]
  · by_cases ho : other = addr
    · simp [Memory.write, hv, Memory.read_insert _ _ _ _ (Memory.erase_erase m addr), ho]
    · simp [Memory.write, hv, Memory.read_insert _ _ _ _ (Memory.erase_erase m addr), ho,
        Memory.read_erase]

/-! ### The canonical form -/

theorem Memory.wfFrom_mono (m : Memory) (low high : Nat) (h : low ≤ high)
    (hm : Memory.wfFrom high m = true) : Memory.wfFrom low m = true := by
  cases m with
  | nil => rfl
  | cons cell m =>
    simp only [Memory.wfFrom, Bool.and_eq_true, decide_eq_true_eq] at hm ⊢
    exact ⟨⟨⟨by omega, hm.1.1.2⟩, hm.1.2⟩, hm.2⟩

theorem Memory.wfFrom_erase (m : Memory) (bound addr : Nat) (hm : Memory.wfFrom bound m = true) :
    Memory.wfFrom bound (Memory.erase m addr) = true := by
  induction m generalizing bound with
  | nil => rfl
  | cons cell m ih =>
    simp only [Memory.wfFrom, Bool.and_eq_true, decide_eq_true_eq] at hm
    by_cases hc : cell.1 = addr
    · simp only [Memory.erase, hc, if_true]
      exact ih bound (Memory.wfFrom_mono m bound (cell.1 + 1) (by omega) hm.2)
    · simp only [Memory.erase, hc, if_false, Memory.wfFrom, Bool.and_eq_true, decide_eq_true_eq]
      exact ⟨hm.1, ih (cell.1 + 1) hm.2⟩

theorem Memory.wfFrom_insert (m : Memory) (bound addr : Nat) (v : Byte) (hb : bound ≤ addr)
    (ha : addr < Config.memSize) (hv : v ≠ Memory.unlisted) (he : Memory.erase m addr = m)
    (hm : Memory.wfFrom bound m = true) : Memory.wfFrom bound (Memory.insert m addr v) = true := by
  induction m generalizing bound with
  | nil =>
    simp only [Memory.insert, Memory.wfFrom, Bool.and_eq_true, decide_eq_true_eq, Bool.and_true]
    exact ⟨⟨hb, ha⟩, hv⟩
  | cons cell m ih =>
    simp only [Memory.wfFrom, Bool.and_eq_true, decide_eq_true_eq] at hm
    by_cases hlt : addr < cell.1
    · simp only [Memory.insert, hlt, if_true, Memory.wfFrom, Bool.and_eq_true, decide_eq_true_eq]
      exact ⟨⟨⟨hb, ha⟩, hv⟩, ⟨⟨by omega, hm.1.1.2⟩, hm.1.2⟩, hm.2⟩
    · have hne : ¬ cell.1 = addr := by
        intro h
        have hr := Memory.read_erase (cell :: m) addr addr
        rw [he] at hr
        simp only [Memory.read, h, if_true] at hr
        exact hm.1.2 hr
      have he' : Memory.erase m addr = m := by simpa [Memory.erase, hne] using he
      simp only [Memory.insert, hlt, if_false, Memory.wfFrom, Bool.and_eq_true, decide_eq_true_eq]
      exact ⟨hm.1, ih (cell.1 + 1) (by omega) he' hm.2⟩

/-- Writing a byte at a valid address keeps the canonical form. -/
theorem Memory.wf_write (m : Memory) (addr : Nat) (v : Byte) (ha : addr < Config.memSize)
    (hm : Memory.wf m = true) : Memory.wf (Memory.write m addr v) = true := by
  have he := Memory.wfFrom_erase m 0 addr hm
  by_cases hv : v = Memory.unlisted
  · simpa [Memory.wf, Memory.write, hv] using he
  · simpa [Memory.wf, Memory.write, hv] using
      Memory.wfFrom_insert (Memory.erase m addr) 0 addr v (Nat.zero_le _) ha hv
        (Memory.erase_erase m addr) he

/-- Two canonical memories that read alike from `bound` up are one list. -/
theorem Memory.wfFrom_ext (m n : Memory) (bound : Nat) (hm : Memory.wfFrom bound m = true)
    (hn : Memory.wfFrom bound n = true) (h : ∀ addr, Memory.read m addr = Memory.read n addr) :
    m = n := by
  have below : ∀ (l : Memory) (b addr : Nat), Memory.wfFrom b l = true → addr < b →
      Memory.read l addr = Memory.unlisted := by
    intro l
    induction l with
    | nil => intros; rfl
    | cons cell l ih =>
      intro b addr hl hlt
      simp only [Memory.wfFrom, Bool.and_eq_true, decide_eq_true_eq] at hl
      have : ¬ cell.1 = addr := by omega
      simp only [Memory.read, this, if_false]
      exact ih (cell.1 + 1) addr hl.2 (by omega)
  induction m generalizing n bound with
  | nil =>
    cases n with
    | nil => rfl
    | cons d n =>
      simp only [Memory.wfFrom, Bool.and_eq_true, decide_eq_true_eq] at hn
      have := h d.1
      simp only [Memory.read, if_true] at this
      exact absurd this.symm hn.1.2
  | cons c m ih =>
    cases n with
    | nil =>
      simp only [Memory.wfFrom, Bool.and_eq_true, decide_eq_true_eq] at hm
      have := h c.1
      simp only [Memory.read, if_true] at this
      exact absurd this hm.1.2
    | cons d n =>
      simp only [Memory.wfFrom, Bool.and_eq_true, decide_eq_true_eq] at hm hn
      have hcd : c.1 = d.1 := by
        rcases Nat.lt_trichotomy c.1 d.1 with hlt | heq | hgt
        · have h1 := h c.1
          have hdc : ¬ d.1 = c.1 := by omega
          simp only [Memory.read, if_true, hdc, if_false] at h1
          rw [below n (d.1 + 1) c.1 hn.2 (by omega)] at h1
          exact absurd h1 hm.1.2
        · exact heq
        · have h1 := h d.1
          have hcd : ¬ c.1 = d.1 := by omega
          simp only [Memory.read, if_true, hcd, if_false] at h1
          rw [below m (c.1 + 1) d.1 hm.2 (by omega)] at h1
          exact absurd h1.symm hn.1.2
      have hval : c.2 = d.2 := by
        have h1 := h c.1
        simpa [Memory.read, hcd] using h1
      have htail : m = n := by
        refine ih n (c.1 + 1) hm.2 (hcd ▸ hn.2) fun addr => ?_
        by_cases ha : addr < c.1 + 1
        · rw [below m (c.1 + 1) addr hm.2 ha, below n (c.1 + 1) addr (hcd ▸ hn.2) ha]
        · have h1 := h addr
          have hc : ¬ c.1 = addr := by omega
          have hd : ¬ d.1 = addr := by omega
          simpa [Memory.read, hc, hd] using h1
      rw [show c = d from Prod.ext hcd hval, htail]

/-! ### The same, over State -/

theorem wf_writeByte (addr : Addr) (v : Byte) (s : State) (h : Memory.wf s.mem = true) :
    Memory.wf (writeByte addr v s).mem = true :=
  Memory.wf_write s.mem addr.toNat v addr.isLt h

theorem wf_writeBytes (bytes : List Byte) (addr : Addr) (s : State) (h : Memory.wf s.mem = true) :
    Memory.wf (writeBytes addr bytes s).mem = true := by
  induction bytes generalizing addr s with
  | nil => exact h
  | cons v vs ih => exact ih (addr + 1) (writeByte addr v s) (wf_writeByte addr v s h)

theorem wf_storeReg (r : Reg) (addr : Addr) (s : State) (h : Memory.wf s.mem = true) :
    Memory.wf (storeReg r addr s).mem = true :=
  wf_writeByte addr (readReg r s) s h

/-- Reading depends on memory alone. -/
theorem readByte_of_mem_eq {s t : State} (h : t.mem = s.mem) (addr : Addr) :
    readByte t addr = readByte s addr := by
  simp [readByte, h]

end Sys2Proof.Machine
end

