-- ==== Sys2Proof/Laws/PerInstr.lean ====
section
/-! SUPPORT. Statements made for each instruction as syntax. -/

/-- The encoding has as many bytes as the format the decoder finds for its first byte (R50, R56). -/
def Sys2Proof.Laws.EncodedLength.Statement (i : Sys2Proof.Instr) : Prop :=
  (Sys2Proof.encode i).length =
    match i with
    | .unknown _ => 1
    | _ => (Sys2Proof.entryOf ((Sys2Proof.encode i).headD 0)).length

namespace Sys2Proof.Laws.EncodedLength

theorem ldx (addr : Addr) : Statement (.ldx addr) := rfl
theorem ldxim (imm : Byte) : Statement (.ldxim imm) := rfl
theorem stx (addr : Addr) : Statement (.stx addr) := rfl
theorem ldy (addr : Addr) : Statement (.ldy addr) := rfl
theorem ldyim (imm : Byte) : Statement (.ldyim imm) := rfl
theorem sty (addr : Addr) : Statement (.sty addr) := rfl
theorem ldaim (imm : Byte) : Statement (.ldaim imm) := rfl
theorem adc (addr : Addr) : Statement (.adc addr) := rfl
theorem sta (addr : Addr) : Statement (.sta addr) := rfl
theorem cld : Statement .cld := rfl
theorem clc : Statement .clc := rfl
theorem rts : Statement .rts := rfl
theorem tax : Statement .tax := rfl
theorem txa : Statement .txa := rfl
theorem tay : Statement .tay := rfl
theorem tya : Statement .tya := rfl
theorem unknown (opcode : Byte) : Statement (.unknown opcode) := rfl

end Sys2Proof.Laws.EncodedLength
end

