-- ==== Sys2Proof/Laws/Step.lean ====
section
/-! SUPPORT. What `exec` answers for each instruction, and what one step does, in the shared operations. -/

namespace Sys2Proof.Machine

/-- The state an instruction leads to, in the shared operations: the whole of what `exec` can do. -/
theorem exec_eq (i : Instr) (s : State) :
    exec i s = .next (match i with
      | .ldx addr => retire 3 (loadReg .x (readByte s addr) s)
      | .ldxim imm => retire 2 (loadReg .x imm s)
      | .stx addr => retire 3 (storeReg .x addr s)
      | .ldy addr => retire 3 (loadReg .y (readByte s addr) s)
      | .ldyim imm => retire 2 (loadReg .y imm s)
      | .sty addr => retire 3 (storeReg .y addr s)
      | .ldaim imm => retire 2 (loadReg .a imm s)
      | .adc addr => retire 3 (addWithCarry (readByte s addr) s)
      | .sta addr => retire 3 (storeReg .a addr s)
      | .cld => retire 1 (clearFlag .d s)
      | .clc => retire 1 (clearFlag .c s)
      | .rts => halt (retire 1 s)
      | .tax => retire 1 (loadReg .x s.a s)
      | .txa => retire 1 (loadReg .a s.x s)
      | .tay => retire 1 (loadReg .y s.a s)
      | .tya => retire 1 (loadReg .a s.y s)
      | .unknown _ => retire 1 s) := by
  cases i <;> rfl

theorem step_of_running {s : State} (h : s.runState = .running) : step s = exec (fetch s) s := by
  simp [step, h]

theorem step_of_halted {s : State} (h : s.runState = .halted) : step s = .next s := by
  simp [step, h]

/-! ### What the step fetches, by the byte at `pc` (R72, R73) -/

theorem fetch_none {s : State} {i : Instr} (h : entryOf (readByte s s.pc) = .none i) :
    fetch s = i := by
  simp [fetch, fetchOpcode, h]

theorem fetch_immediate8 {s : State} {mk : Byte → Instr}
    (h : entryOf (readByte s s.pc) = .immediate8 mk) : fetch s = mk (readByte s (s.pc + 1)) := by
  simp [fetch, fetchOpcode, fetchImmediate, h]

theorem fetch_absolute16 {s : State} {mk : Addr → Instr}
    (h : entryOf (readByte s s.pc) = .absolute16 mk) :
    fetch s = mk (addrOfBytes (readByte s (s.pc + 1)) (readByte s (s.pc + 2))) := by
  simp [fetch, fetchOpcode, fetchAbsolute, h]

end Sys2Proof.Machine
end

