-- ==== Sys2Proof/Laws/Run.lean ====
section
/-! SUPPORT. Runs, step by step: the induction steps every statement about a run uses. -/

namespace Sys2Proof.Machine

@[simp] theorem reaches_zero (s t : State) : Reaches 0 s t ↔ t = s := by
  constructor
  · intro h
    cases h
    rfl
  · rintro rfl
    rfl

/-- The first step of a run, then the rest of it. -/
theorem reaches_succ {n : Nat} {s u t : State} (h : step s = .next u) :
    Reaches (n + 1) s t ↔ Reaches n u t := by
  simp [Reaches, Host.Core.run, show Sys2Proof.core.step s = step s from rfl, h]

/-- A run of one step is the step. -/
theorem reaches_one {s t : State} : Reaches 1 s t ↔ step s = .next t := by
  cases h : step s with
  | next u => simp [reaches_succ h, eq_comm]
  | fault r => cases r
  | refused r => simp [Reaches, Host.Core.run, show Sys2Proof.core.step s = step s from rfl, h]

/-- A run, and then a run from where it ended, are one run. -/
theorem reaches_add {n k : Nat} {s t u : State} (h : Reaches n s t) (h' : Reaches k t u) :
    Reaches (n + k) s u := by
  induction n generalizing s with
  | zero =>
    rw [reaches_zero] at h
    subst h
    simpa using h'
  | succ n ih =>
    cases hs : step s with
    | next v =>
      rw [Nat.add_right_comm, reaches_succ hs]
      exact ih ((reaches_succ hs).mp h)
    | fault r => cases r
    | refused r => simp [Reaches, Host.Core.run, show Sys2Proof.core.step s = step s from rfl, hs] at h

end Sys2Proof.Machine
end

