-- ==== Sys2Proof/Tests/Slice0.lean ====
section
/-! SUPPORT. Tests. Every expected value is from spec/95_test_vectors.md (the section is named), from the
examples in the instruction rules, or written out by hand from 30_encoding.md R55. -/

namespace Sys2Proof.Tests

open Sys2Proof.Machine Sys2Proof.Claims

/-! ### WellFormed: the one check, and a term it refuses -/

theorem test_wf_refuses_unknown_rts : (Instr.unknown 0x60).wellFormed = false := by decide
theorem test_wf_accepts_unknown_brk : (Instr.unknown 0x00).wellFormed = true := by decide

/-! ### Decode: words written out bit by bit (R55), operands as in 2.1 -/

/-- The instruction a list of bytes holds. -/
def decoded (bytes : List Byte) : Option Instr :=
  match decode bytes with
  | .ok (i, _) => some i
  | .error _ => none

theorem test_decode_loads :
    decoded [0b10101110, 0x84, 0x03] = some (.ldx 900) ∧ decoded [0b10100010, 1] = some (.ldxim 1)
      ∧ decoded [0b10101100, 0xFF, 0xFF] = some (.ldy 65535)
      ∧ decoded [0b10100000, 0xFF] = some (.ldyim 255) ∧ decoded [0b10101001, 2] = some (.ldaim 2) := by
  decide
theorem test_decode_stores :
    decoded [0b10001110, 0x84, 0x03] = some (.stx 900) ∧ decoded [0b10001100, 0, 0] = some (.sty 0)
      ∧ decoded [0b10001101, 0x85, 0x03] = some (.sta 901) := by
  decide
theorem test_decode_adc : decoded [0b01101101, 0x00, 0x01] = some (.adc 256) := by decide
theorem test_decode_flag_clears :
    decoded [0b11011000] = some .cld ∧ decoded [0b00011000] = some .clc := by decide
theorem test_decode_control :
    decoded [0b01100000] = some .rts ∧ decoded [0x00] = some (.unknown 0x00) := by decide
theorem test_decode_transfers :
    decoded [0b10101010] = some .tax ∧ decoded [0b10001010] = some .txa
      ∧ decoded [0b10101000] = some .tay ∧ decoded [0b10011000] = some .tya := by decide
/-- 2.7: near misses that are unknown bytes. -/
theorem test_decode_near_misses :
    decoded [0xAD, 0x84, 0x03] = some (.unknown 0xAD) ∧ decoded [0x8F] = some (.unknown 0x8F)
      ∧ decoded [0x6C] = some (.unknown 0x6C) ∧ decoded [0x19] = some (.unknown 0x19) := by decide
theorem test_decode_truncated : decoded [0xAE, 0x84] = none ∧ decoded [] = none := by decide
theorem test_decodeTableWord :
    decodeTableWord 24 0x0384AE = some (.ldx 900) ∧ decodeTableWord 8 0xAE = some (.ldx 0)
      ∧ decodeTableWord 8 0x60 = some .rts := by decide

/-! ### One step -/

/-- A running machine with the bytes at 0x0300 and `pc` there, from reset otherwise. -/
def machine (code : List Byte) : State :=
  { writeBytes 0x0300 code State.reset with pc := 0x0300, runState := .running }

/-- The next state, if the step answers one. -/
def after (o : Host.Outcome State Fault Refusal) : Option State :=
  match o with
  | .next t => some t
  | .fault _ => none
  | .refused _ => none

/-- 2.3, LDX 8192. -/
theorem test_ldx :
    (after (step (writeByte 0x2000 0x80 { machine [0xAE, 0x00, 0x20] with p := 0x01 }))).map
      (fun t => (t.x, t.p, t.pc)) = some (0x80, 0x81, 0x0303) := by decide
/-- 2.3, LDX of its own opcode byte. -/
theorem test_ldx_own_opcode :
    (after (step (machine [0xAE, 0x00, 0x03]))).map (fun t => (t.x, t.p)) = some (0xAE, 0x80) := by
  decide
/-- 2.3, LDXIM 127: C is kept. -/
theorem test_ldxim :
    (after (step { machine [0xA2, 0x7F] with p := 0x83 })).map (fun t => (t.x, t.p, t.pc))
      = some (0x7F, 0x01, 0x0302) := by decide
/-- 2.4, STX 0. -/
theorem test_stx :
    (after (step (writeByte 0 0x11 { machine [0x8E, 0x00, 0x00] with x := 0xFF }))).map
      (fun t => (readByte t 0, t.pc)) = some (0xFF, 0x0303) := by decide
/-- R93's example. -/
theorem test_ldy :
    (after (step { machine [0xAC, 0x00, 0x20] with y := 0x55, p := 0xC3 })).map
      (fun t => (t.y, t.p)) = some (0x00, 0x43) := by decide
/-- 2.3, LDYIM 0: bits 6 to 2 and C are kept, Z is set. -/
theorem test_ldyim :
    (after (step { machine [0xA0, 0x00] with y := 0x01, p := 0x7D })).map (fun t => (t.y, t.p))
      = some (0x00, 0x7F) := by decide
/-- 2.4, STY 65535: a zero stored, no flag set. -/
theorem test_sty :
    (after (step (writeByte 0xFFFF 0x22 (machine [0x8C, 0xFF, 0xFF])))).map
      (fun t => (readByte t 0xFFFF, t.p)) = some (0x00, 0x00) := by decide
/-- 2.3, LDAIM 96: the operand 0x60 halts nothing. -/
theorem test_ldaim :
    (after (step (machine [0xA9, 0x60]))).map (fun t => (t.a, t.p, t.runState))
      = some (0x60, 0x00, .running) := by decide
/-- 2.4, STA over its own opcode: the step completes as STA. -/
theorem test_sta_own_opcode :
    (after (step { machine [0x8D, 0x00, 0x03] with a := 0x60 })).map
      (fun t => (readByte t 0x0300, t.pc, t.runState)) = some (0x60, 0x0303, .running) := by decide
/-- 2.2: bits 5, 4, 3, 2 preserved, overflow from positive to negative. -/
theorem test_adc_overflow :
    (after (step (writeByte 0x2000 0x01 { machine [0x6D, 0x00, 0x20] with a := 0x7F, p := 0x3C }))).map
      (fun t => (t.a, t.p)) = some (0x80, 0xFC) := by decide
/-- 2.2: old N, V, Z overwritten; C in and out. -/
theorem test_adc_carry :
    (after (step (writeByte 0x2000 0x80 { machine [0x6D, 0x00, 0x20] with a := 0x80, p := 0xFD }))).map
      (fun t => (t.a, t.p, t.pc)) = some (0x01, 0x7D, 0x0303) := by decide
/-- R105's and R106's examples. -/
theorem test_cld : (after (step { machine [0xD8] with p := 0xFF })).map (·.p) = some 0xF7 := by decide
theorem test_clc : (after (step { machine [0x18] with p := 0x03 })).map (·.p) = some 0x02 := by decide
/-- R110's example. -/
theorem test_rts :
    (after (step { machine [0x60] with icount := 5 })).map (fun t => (t.runState, t.icount, t.pc))
      = some (.halted, 6, 0x0301) := by decide
/-- R115's, R116's, R117's and R118's examples. -/
theorem test_tax :
    (after (step { machine [0xAA] with a := 0x80, x := 0x01, p := 0x02 })).map
      (fun t => (t.a, t.x, t.p)) = some (0x80, 0x80, 0x80) := by decide
theorem test_txa :
    (after (step { machine [0x8A] with a := 0x33, p := 0x81 })).map (fun t => (t.a, t.p))
      = some (0x00, 0x03) := by decide
theorem test_tay :
    (after (step { machine [0xA8] with a := 0x7F, p := 0xC0 })).map (fun t => (t.y, t.p))
      = some (0x7F, 0x40) := by decide
theorem test_tya :
    (after (step { machine [0x98] with y := 0xFF, p := 0x02 })).map (fun t => (t.a, t.p))
      = some (0xFF, 0x80) := by decide
/-- 2.6: 0xFF at the top of memory. -/
theorem test_unknown_wraps :
    (after (step { writeByte 0xFFFF 0xFF (machine []) with pc := 0xFFFF, a := 0x12, p := 0x81 })).map
      (fun t => (t.pc, t.icount, t.a, t.p, t.runState)) = some (0x0000, 1, 0x12, 0x81, .running) := by
  decide
/-- P4's first variant: the operand is read from 0x0000. -/
theorem test_operand_wraps :
    (after (step { writeBytes 0xFFFF [0xA9, 0x60, 0x60] (machine []) with pc := 0xFFFF })).map
      (fun t => (t.a, t.p, t.pc)) = some (0x60, 0x00, 0x0001) := by decide
/-- Log entry 5: the instruction placed at reset is the first to run. -/
theorem test_withFetchWord :
    (after (step (State.reset.withFetchWord 16 0x07A9))).map (fun t => (t.a, t.icount)) = some (0x07, 1)
      ∧ (after (step State.reset)).map (·.icount) = some 0 := by decide

/-! ### The assembly text (S1, R60 to R64) -/

/-- The image a text stands for. -/
def imageOf (text : List Char) : Option Image :=
  match assemble text with
  | .ok image => some image
  | .error _ => none

theorem test_assemble :
    imageOf ['8', '2', '8', '\n', 'S', 'T', 'X', ' ', '9', '0', '0', '\n', 'R', 'T', 'S', '\n', 'E', 'N', 'D']
      = some { loadAddress := 0x033C, bytes := [0x8E, 0x84, 0x03, 0x60] } := by decide
theorem test_assemble_refuses_missing_end : imageOf ['0', '\n', 'R', 'T', 'S'] = none := by decide
theorem test_assemble_refuses_large_literal :
    emitMnemonic ['L', 'D', 'X', 'I', 'M'] (some 256) matches .error .literalOutOfRange := by decide

/-! ### The host's actions (R6, R142) -/

theorem test_host_start :
    (after (hostAct (.start 0x0200) { State.reset with icount := 9 })).map
      (fun t => (t.pc, t.icount, t.runState)) = some (0x0200, 0, .running) := by decide
theorem test_host_excluded :
    hostAct .reset (machine []) matches .refused .hostExcluded := by decide

/-! ### Witnesses: each statement's hypotheses are met by a concrete state and operands -/

theorem witness_OnlyAdcAndClcChangeCarryAndOverflow :
    -- ADC turns C on and changes V; ADC turns C off; CLC turns C off
    (after (step { machine [0x6D, 0x00, 0x03] with a := 0xFF })).map
        (fun t => (t.p.getLsbD 0, t.runState)) = some (true, .running)
      ∧ (after (step { machine [0x6D, 0x00, 0x03] with a := 0x7F })).map (fun t => t.p.getLsbD 6)
        = some true
      ∧ (after (step { machine [0x6D, 0x00, 0x03] with p := 0x01 })).map (fun t => t.p.getLsbD 0)
        = some false
      ∧ (after (step { machine [0x18] with p := 0x01 })).map (fun t => t.p.getLsbD 0) = some false := by
  decide

/-- The ends of every range of R57, and the table's bytes beside them. -/
theorem witness_UnknownBytesAreOneByteNoOps :
    (∀ n ∈ [0x00, 0x17, 0x19, 0x5F, 0x61, 0x6C, 0x6E, 0x89, 0x8B, 0x8F, 0x97, 0x99, 0x9F, 0xA1, 0xA3, 0xA7,
        0xAB, 0xAD, 0xAF, 0xD7, 0xD9, 0xFF], ListedUnknown n)
      ∧ ∀ n ∈ [0x18, 0x60, 0x6D, 0x8A, 0x8C, 0x8D, 0x8E, 0x98, 0xA0, 0xA2, 0xA8, 0xA9, 0xAA, 0xAC, 0xAE, 0xD8],
        ¬ ListedUnknown n := by decide

theorem witness_UnknownBytesAreWalkedOneByOne :
    (machine [0xEA, 0xEA]).runState = .running ∧ ListedUnknown (0xEA : Byte).toNat
      ∧ ∀ k, k < 2 → readByte (machine [0xEA, 0xEA]) ((machine [0xEA, 0xEA]).pc + BitVec.ofNat 16 k) = 0xEA := by
  decide

/-- For ADC, whose row reads most: two states that differ in all that it does not read. -/
theorem witness_ResultsDependOnlyOnTheReadColumn :
    let s := machine [0x6D, 0x00, 0x20]
    let u : State := { machine [0x6D, 0x00, 0x20] with x := 1, y := 2, s := 3, p := 0xFE }
    u.pc = s.pc ∧ u.icount = s.icount ∧ (∀ r, sourceReg (.adc 0x2000) = some r → readReg r u = readReg r s)
      ∧ (∀ addr, loadAddr (.adc 0x2000) = some addr → readByte u addr = readByte s addr)
      ∧ (∀ addr, Instr.adc 0x2000 = .adc addr → u.p.getLsbD 0 = s.p.getLsbD 0) := by
  refine ⟨rfl, rfl, ?_, ?_, fun _ _ => rfl⟩
  · intro r h
    cases h
    rfl
  · intro addr h
    cases h
    rfl

theorem witness_NoRunChangesUnusedState :
    Reaches 1 { machine [0xA2, 0x80] with s := 9, p := 0x34 }
        { machine [0xA2, 0x80] with s := 9, p := 0xB4, x := 0x80, pc := 0x0302, icount := 1 }
      ∧ ({ machine [0xA2, 0x80] with s := 9, p := 0x34 } : State).p.getLsbD 3 = false :=
  ⟨rfl, rfl⟩

theorem witness_StepRunsTheDecodedInstruction :
    (machine [0xA2, 0x01]).runState = .running
      ∧ decode [readByte (machine [0xA2, 0x01]) 0x0300, readByte (machine [0xA2, 0x01]) 0x0301,
          readByte (machine [0xA2, 0x01]) 0x0302] = .ok (.ldxim 1, [0x00]) :=
  ⟨rfl, rfl⟩

/-- RUNNING, and one byte of each length at `pc`. -/
theorem witness_EveryStepAdvancesPcAndCount :
    (machine [0xAE]).runState = .running
      ∧ listedLength (readByte (machine [0xAE]) 0x0300) = 3
      ∧ listedLength (readByte (machine [0xA9]) 0x0300) = 2
      ∧ listedLength (readByte (machine [0x60]) 0x0300) = 1
      ∧ listedLength (readByte (machine [0xAD]) 0x0300) = 1 := by decide

theorem witness_StepHaltsExactlyOnOpcodeRts :
    (machine [0x60]).runState = .running ∧ readByte (machine [0x60]) (machine [0x60]).pc = 0x60
      ∧ readByte (machine [0x61]) (machine [0x61]).pc ≠ 0x60 := by decide

theorem witness_HaltedEngineChangesNothing : State.reset.runState = .halted := rfl

/-- RUNNING with each store, and with an instruction that stores nothing, at `pc`. -/
theorem witness_OnlyStoresWriteMemoryAndOneByte :
    (machine [0x8E]).runState = .running ∧ readByte (machine [0x8E]) (machine [0x8E]).pc = 0x8E
      ∧ readByte (machine [0x8C]) (machine [0x8C]).pc = 0x8C
      ∧ readByte (machine [0x8D]) (machine [0x8D]).pc = 0x8D
      ∧ readByte (machine [0x6D]) (machine [0x6D]).pc = 0x6D := by decide

theorem witness_StoredByteIsFetchedByTheNextStep :
    let s : State := { machine [0x8D, 0x03, 0x03] with a := 0x60 }
    s.runState = .running
      ∧ decode [s.a, readByte s (s.pc + 4), readByte s (s.pc + 5)] = .ok (.rts, [0x00, 0x00]) :=
  ⟨rfl, rfl⟩

theorem witness_OperandFetchWrapsAtTheTopOfMemory :
    (let s : State := { writeBytes 0xFFFF [0xA9, 0x60] (machine []) with pc := 0xFFFF }
     s.runState = .running ∧ s.pc = 0xFFFF ∧ readByte s 0xFFFF = 0xA9)
      ∧ (let s : State := { writeBytes 0xFFFE [0xAE, 0x34, 0x12] (machine []) with pc := 0xFFFE }
         s.runState = .running ∧ s.pc = 0xFFFE ∧ readByte s 0xFFFE = 0xAE
           ∧ (0x1234 : Addr).toNat = (readByte s 0x0000).toNat * 256 + (readByte s 0xFFFF).toNat) := by
  decide

theorem witness_RunWithoutRtsGoesOn :
    (machine [0xEA]).runState = .running
      ∧ ∀ k t, k < 1 → Reaches k (machine [0xEA]) t → readByte t t.pc ≠ 0x60 := by
  refine ⟨rfl, ?_⟩
  intro k t hk h
  obtain rfl : k = 0 := by omega
  rw [reaches_zero] at h
  subst h
  decide

theorem witness_RunEndsAtTheFirstRts :
    let t : State := { machine [0xEA, 0x60] with pc := 0x0301, icount := 1 }
    Reaches 1 (machine [0xEA, 0x60]) t ∧ t.runState = .running ∧ readByte t t.pc = 0x60 :=
  ⟨rfl, rfl, rfl⟩

/-- A store into canonical memory, and its next state. -/
theorem witness_StepKeepsMemoryCanonical :
    dataInv (machine [0x8D, 0x00, 0x00])
      ∧ (after (step { machine [0x8D, 0x00, 0x00] with a := 5 })).map (fun t => (t.mem.head?, t.mem.length))
        = some (some (0, 5), 2) := by
  exact ⟨rfl, by decide⟩

theorem witness_HostActionKeepsMemoryCanonical :
    dataInv State.reset
      ∧ hostAct (.load 0xFFFF [1, 2]) State.reset = .next (writeBytes 0xFFFF [1, 2] State.reset) :=
  ⟨rfl, rfl⟩

theorem witness_StartBeginsARunAtTheLoadAddress :
    State.reset.runState = .halted
      ∧ decode [readByte State.reset 0x033C, readByte State.reset (0x033C + 1),
          readByte State.reset (0x033C + 2)] = .ok (.unknown 0, [0, 0]) :=
  ⟨rfl, rfl⟩

/-- The longest image, and one that wraps, with an address it covers and one it leaves. -/
theorem witness_LoadPlacesBytesConsecutively :
    State.reset.runState = .halted ∧ (List.replicate 65536 (1 : Byte)).length ≤ 65536
      ∧ ([1, 2] : List Byte)[1]? = some 2
      ∧ ∀ k, k < ([1, 2] : List Byte).length → (0x0001 : Addr) ≠ 0xFFFF + BitVec.ofNat 16 k := by
  exact ⟨rfl, List.length_replicate.le, rfl, by decide⟩

theorem witness_HostHasNoMoveWhileRunning : (machine []).runState = .running := rfl

theorem witness_DecodeOfEncodeIsTheInstruction :
    (Instr.ldx 0xFFFF).wellFormed = true ∧ (Instr.unknown 0xAD).wellFormed = true := by decide

theorem witness_EncodeOfDecodeIsTheBytes : decode [0x8D, 0x85, 0x03, 0x60] = .ok (.sta 901, [0x60]) := rfl

theorem witness_NoTableByteDecodesToTheNoOp :
    decode [0xD7, 0x60] = .ok (.unknown 0xD7, [0x60]) := rfl

theorem witness_MnemonicsEmitTheirBytes : 65535 < 65536 ∧ 255 < 256 := by decide

end Sys2Proof.Tests
end

section
/-! PROOFS. The rules of every instruction and of every run (10_state.md): O22, O23, O24 and O29. -/

namespace Sys2Proof.StateRules

open Sys2Proof Sys2Proof.Machine Sys2Proof.Claims

/-! ### Reads after an operation -/

@[simp] theorem readReg_retire (r : Reg) (length : Nat) (s : State) :
    readReg r (retire length s) = readReg r s := by cases r <;> rfl

@[simp] theorem readReg_loadReg_same (r : Reg) (v : Byte) (s : State) :
    readReg r (loadReg r v s) = v := by cases r <;> rfl

@[simp] theorem readByte_retire (length : Nat) (s : State) (addr : Addr) :
    readByte (retire length s) addr = readByte s addr := rfl

/-- A store is read back at its own address and leaves every other byte (R32). -/
theorem readByte_storeReg (r : Reg) (addr : Addr) (s : State) (other : Addr) :
    readByte (storeReg r addr s) other = if other = addr then readReg r s else readByte s other := by
  simp [readByte, storeReg_mem, Memory.read_write, BitVec.toNat_inj]

/-- A load or transfer sets bits 7 and 1 of `p` from the byte moved, and leaves the others (R79). -/
theorem getLsbD_loadReg_p (r : Reg) (v : Byte) (s : State) (k : Nat) :
    (loadReg r v s).p.getLsbD k
      = if k = 1 then zeroOf v else if k = 7 then negativeOf v else s.p.getLsbD k := by
  simp only [loadReg_p, getLsbD_writeFlag]
  rfl

/-! ### Every instruction and every step completes -/

theorem exists_exec_eq_next (i : Instr) (s : State) : ∃ t, exec i s = .next t :=
  ⟨_, exec_eq i s⟩

theorem exists_step_eq_next (s : State) : ∃ t, step s = .next t := by
  cases h : s.runState with
  | running => exact step_of_running h ▸ exists_exec_eq_next (fetch s) s
  | halted => exact ⟨s, step_of_halted h⟩

/-! ### What no instruction changes -/

/-- R17: a bit of `p` outside the "Flags touched" entry is as it was. -/
theorem getLsbD_p_of_not_touched {i : Instr} {s t : State} (h : exec i s = .next t) {k : Nat}
    (hk : k ∉ touchedBits i) : t.p.getLsbD k = s.p.getLsbD k := by
  rw [exec_eq] at h
  cases h
  cases i with
  | ldx _ | ldxim _ | ldy _ | ldyim _ | ldaim _ | tax | txa | tay | tya =>
    obtain ⟨h7, h1⟩ : k ≠ 7 ∧ k ≠ 1 := by simpa [touchedBits] using hk
    rw [retire_p, getLsbD_loadReg_p, if_neg h1, if_neg h7]
  | adc _ =>
    obtain ⟨h7, h6, h1, h0⟩ : k ≠ 7 ∧ k ≠ 6 ∧ k ≠ 1 ∧ k ≠ 0 := by simpa [touchedBits] using hk
    rw [retire_p, addWithCarry_p, getLsbD_adcFlags, if_neg h6, if_neg h7, if_neg h1, if_neg h0]
  | cld =>
    have h3 : k ≠ 3 := by simpa [touchedBits] using hk
    rw [retire_p, getLsbD_clearFlag, flagIndex_d, if_neg h3]
  | clc =>
    have h0 : k ≠ 0 := by simpa [touchedBits] using hk
    rw [retire_p, getLsbD_clearFlag, flagIndex_c, if_neg h0]
  | stx _ | sty _ | sta _ | rts | unknown _ => rfl

/-- R15: no instruction writes the stack pointer. -/
theorem exec_s_eq {i : Instr} {s t : State} (h : exec i s = .next t) : t.s = s.s := by
  rw [exec_eq] at h
  cases h
  cases i <;> simp

/-- R23: bits 5, 4 and 2 are in no "Flags touched" entry. -/
theorem unused_bits_not_touched (i : Instr) :
    5 ∉ touchedBits i ∧ 4 ∉ touchedBits i ∧ 2 ∉ touchedBits i := by
  cases i <;> simp [touchedBits]

/-- R22: D is in CLD's "Flags touched" entry alone. -/
theorem eq_cld_of_d_touched {i : Instr} (h : 3 ∈ touchedBits i) : i = .cld := by
  cases i <;> simp_all [touchedBits]

/-- R22: no instruction sets D. CLD clears it and the others leave it. -/
theorem d_clear_of_d_clear {i : Instr} {s t : State} (h : exec i s = .next t)
    (hd : s.p.getLsbD 3 = false) : t.p.getLsbD 3 = false := by
  by_cases hi : 3 ∈ touchedBits i
  · obtain rfl := eq_cld_of_d_touched hi
    rw [exec_eq] at h
    cases h
    rw [retire_p, getLsbD_clearFlag, flagIndex_d, if_pos rfl]
  · rw [getLsbD_p_of_not_touched h hi, hd]

/-! ### What no run changes -/

/-- The stack pointer and bits 5, 4 and 2 of `p` are as before, and D is set only if it was set before. -/
structure KeepsUnused (before after : State) : Prop where
  s : after.s = before.s
  bit5 : after.p.getLsbD 5 = before.p.getLsbD 5
  b : after.p.getLsbD 4 = before.p.getLsbD 4
  i : after.p.getLsbD 2 = before.p.getLsbD 2
  d : before.p.getLsbD 3 = false → after.p.getLsbD 3 = false

theorem KeepsUnused.refl (s : State) : KeepsUnused s s :=
  ⟨rfl, rfl, rfl, rfl, id⟩

theorem KeepsUnused.trans {s t u : State} (h : KeepsUnused s t) (h' : KeepsUnused t u) :
    KeepsUnused s u :=
  ⟨h'.s.trans h.s, h'.bit5.trans h.bit5, h'.b.trans h.b, h'.i.trans h.i, h'.d ∘ h.d⟩

theorem exec_keepsUnused {i : Instr} {s t : State} (h : exec i s = .next t) : KeepsUnused s t := by
  obtain ⟨h5, h4, h2⟩ := unused_bits_not_touched i
  exact ⟨exec_s_eq h, getLsbD_p_of_not_touched h h5, getLsbD_p_of_not_touched h h4,
    getLsbD_p_of_not_touched h h2, d_clear_of_d_clear h⟩

theorem step_keepsUnused {s t : State} (h : step s = .next t) : KeepsUnused s t := by
  cases hr : s.runState with
  | running => exact exec_keepsUnused (step_of_running hr ▸ h)
  | halted =>
    rw [step_of_halted hr] at h
    cases h
    exact .refl s

/-- A reflexive and transitive relation that every step obeys holds between the ends of every run. -/
theorem rel_of_reaches {R : State → State → Prop} (hrefl : ∀ s, R s s)
    (htrans : ∀ {s t u}, R s t → R t u → R s u) (hstep : ∀ {s t}, step s = .next t → R s t)
    {n : Nat} {s t : State} (h : Reaches n s t) : R s t := by
  induction n generalizing s with
  | zero =>
    rw [reaches_zero] at h
    exact h ▸ hrefl s
  | succ n ih =>
    obtain ⟨u, hs⟩ := exists_step_eq_next s
    exact htrans (hstep hs) (ih ((reaches_succ hs).mp h))

/-! ### What an instruction writes depends on what it reads -/

/-- The two states agree on `pc`, on the count, and on what is named: the written register, the touched
bits of `p` and the stored byte of memory. -/
structure AgreeOn (written : Option Reg) (touched : List Nat) (stored : Option Addr) (t v : State) :
    Prop where
  pc : v.pc = t.pc
  icount : v.icount = t.icount
  reg : ∀ r, written = some r → readReg r v = readReg r t
  bits : ∀ k, k ∈ touched → v.p.getLsbD k = t.p.getLsbD k
  cell : ∀ addr, stored = some addr → readByte v addr = readByte t addr

section
variable {s u : State} (hpc : u.pc = s.pc) (hcount : u.icount = s.icount)
include hpc hcount

/-- The tail of a step alone keeps the agreement on `pc` and the count (R75, R76). -/
theorem agreeOn_retire (length : Nat) : AgreeOn none [] none (retire length s) (retire length u) where
  pc := by simp [hpc]
  icount := by simp [hcount]
  reg := nofun
  bits := nofun
  cell := nofun

/-- The same byte put into the same register leaves the same register, N and Z. -/
theorem agreeOn_loadReg (r : Reg) (length : Nat) {v w : Byte} (hv : w = v) :
    AgreeOn (some r) [7, 1] none (retire length (loadReg r v s)) (retire length (loadReg r w u)) where
  pc := by simp [hpc]
  icount := by simp [hcount]
  reg := by rintro _ ⟨⟩; simp [hv]
  bits := by
    intro k hk
    obtain rfl | rfl : k = 7 ∨ k = 1 := by simpa using hk
    all_goals rw [retire_p, retire_p, getLsbD_loadReg_p, getLsbD_loadReg_p, hv]; rfl
  cell := nofun

/-- The same register stored at the same address leaves the same byte there. -/
theorem agreeOn_storeReg (r : Reg) (addr : Addr) (hr : readReg r u = readReg r s) :
    AgreeOn none [] (some addr) (retire 3 (storeReg r addr s)) (retire 3 (storeReg r addr u)) where
  pc := by simp [hpc]
  icount := by simp [hcount]
  reg := nofun
  bits := nofun
  cell := by rintro _ ⟨⟩; simp [readByte_storeReg, hr]

/-- The sum and its four flags depend on `a`, the addressed byte and C. -/
theorem agreeOn_addWithCarry {m n : Byte} (hm : n = m) (ha : u.a = s.a)
    (hc : u.p.getLsbD 0 = s.p.getLsbD 0) :
    AgreeOn (some .a) [7, 6, 1, 0] none (retire 3 (addWithCarry m s)) (retire 3 (addWithCarry n u)) where
  pc := by simp [hpc]
  icount := by simp [hcount]
  reg := by rintro _ ⟨⟩; simp only [readReg, retire_a, addWithCarry_a, readFlag, flagIndex_c, hm, ha, hc]
  bits := by
    intro k hk
    have hcin : readFlag .c u.p = readFlag .c s.p := hc
    obtain rfl | rfl | rfl | rfl : k = 7 ∨ k = 6 ∨ k = 1 ∨ k = 0 := by simpa using hk
    all_goals
      rw [retire_p, retire_p, addWithCarry_p, addWithCarry_p, getLsbD_adcFlags, getLsbD_adcFlags, hm, ha,
        hcin]
      rfl
  cell := nofun

/-- Clearing a flag leaves it clear, whatever it was. -/
theorem agreeOn_clearFlag (f : Flag) :
    AgreeOn none [flagIndex f] none (retire 1 (clearFlag f s)) (retire 1 (clearFlag f u)) where
  pc := by simp [hpc]
  icount := by simp [hcount]
  reg := nofun
  bits := by simp
  cell := nofun

/-- The read column of R12, for what an instruction writes into registers, `p` and memory. -/
theorem exec_agreeOn_writes {i : Instr} {t v : State} (ht : exec i s = .next t) (hv : exec i u = .next v)
    (hreg : ∀ r, sourceReg i = some r → readReg r u = readReg r s)
    (hload : ∀ addr, loadAddr i = some addr → readByte u addr = readByte s addr)
    (hcarry : ∀ addr, i = .adc addr → u.p.getLsbD 0 = s.p.getLsbD 0) :
    AgreeOn (writtenReg i) (touchedBits i) (storeAddr i) t v := by
  rw [exec_eq] at ht hv
  cases ht
  cases hv
  cases i with
  | ldx addr | ldy addr => exact agreeOn_loadReg hpc hcount _ 3 (hload addr rfl)
  | ldxim _ | ldyim _ | ldaim _ => exact agreeOn_loadReg hpc hcount _ 2 rfl
  | tax | txa | tay | tya => exact agreeOn_loadReg hpc hcount _ 1 (hreg _ rfl)
  | stx addr | sty addr | sta addr => exact agreeOn_storeReg hpc hcount _ addr (hreg _ rfl)
  | adc addr => exact agreeOn_addWithCarry hpc hcount (hload addr rfl) (hreg .a rfl) (hcarry addr rfl)
  | cld => exact agreeOn_clearFlag hpc hcount .d
  | clc => exact agreeOn_clearFlag hpc hcount .c
  | unknown _ => exact agreeOn_retire hpc hcount 1
  | rts =>
    obtain ⟨hpc', hcount', -, -, -⟩ := agreeOn_retire hpc hcount 1
    exact ⟨hpc', hcount', nofun, nofun, nofun⟩

end

/-- R110: RTS ends HALTED. -/
theorem exec_rts_runState {s t : State} (h : exec .rts s = .next t) : t.runState = .halted := by
  rw [exec_eq] at h
  cases h
  rfl

/-! ### What a step writes into memory -/

/-- An instruction that stores nothing leaves every byte (R12). -/
theorem sameMemory_of_storeAddr_none {i : Instr} {s t : State} (h : exec i s = .next t)
    (hi : storeAddr i = none) : SameMemory s t := by
  intro addr
  apply readByte_of_mem_eq
  rw [exec_eq] at h
  cases h
  cases i with
  | stx _ | sty _ | sta _ => cases hi
  | _ => simp

/-- A store and its tail write one byte (R92, R95, R97). -/
theorem wroteByte_storeReg (r : Reg) (addr : Addr) (s : State) :
    WroteByte s (retire 3 (storeReg r addr s)) addr (readReg r s) := by
  intro other
  rw [readByte_retire, readByte_storeReg]

/-- The fetched operand bytes make the address `hi * 256 + lo` (R34). -/
theorem fetch_eq_of_absolute16 {s : State} {mk : Addr → Instr}
    (h : entryOf (readByte s s.pc) = .absolute16 mk) : fetch s = mk (operandAddr s) := by
  rw [fetch_absolute16 h, operandAddr, ← toNat_addrOfBytes, BitVec.ofNat_toNat, BitVec.setWidth_eq]

/-- A step whose opcode is a row of an instruction that stores `r` writes `r` to the operand address. -/
theorem step_wroteByte {s : State} {mk : Addr → Instr} {r : Reg} (hr : s.runState = .running)
    (hmk : entryOf (readByte s s.pc) = .absolute16 mk)
    (hexec : ∀ addr, exec (mk addr) s = .next (retire 3 (storeReg r addr s))) :
    ∃ t, step s = .next t ∧ WroteByte s t (operandAddr s) (readReg r s) := by
  refine ⟨_, ?_, wroteByte_storeReg r (operandAddr s) s⟩
  rw [step_of_running hr, fetch_eq_of_absolute16 hmk, hexec]

/-- Only the bytes 0x8E, 0x8C and 0x8D are fetched as stores (R55). -/
theorem storeAddr_fetch_eq_none {s : State} (hstx : readByte s s.pc ≠ 0x8E)
    (hsty : readByte s s.pc ≠ 0x8C) (hsta : readByte s s.pc ≠ 0x8D) : storeAddr (fetch s) = none := by
  rcases entryOf_cases (readByte s s.pc) with ⟨hop, h⟩ | ⟨hop, h⟩ | ⟨hop, h⟩ | ⟨hop, h⟩ | ⟨hop, h⟩
    | ⟨hop, h⟩ | ⟨hop, h⟩ | ⟨hop, h⟩ | ⟨hop, h⟩ | ⟨hop, h⟩ | ⟨hop, h⟩ | ⟨hop, h⟩ | ⟨hop, h⟩ | ⟨hop, h⟩
    | ⟨hop, h⟩ | ⟨hop, h⟩ | ⟨hop, h⟩ <;>
    simp only [fetch, fetchOpcode, h, storeAddr, reduceCtorEq]
  · exact hstx hop
  · exact hsty hop
  · exact hsta hop

/-! ### The obligations -/

/-- Settles O24: the relation `KeepsUnused` holds across every step, so across every run. -/
theorem noRunChangesUnusedState : Obligations.NoRunChangesUnusedState := by
  intro n s t h
  obtain ⟨hs, h5, h4, h2, hd⟩ := rel_of_reaches .refl .trans step_keepsUnused h
  exact ⟨hs, h5, h4, h2, hd⟩

/-- Settles O22. -/
theorem onlyDocumentedFlagsChange : Obligations.OnlyDocumentedFlagsChange := by
  intro i s
  obtain ⟨t, ht⟩ := exists_exec_eq_next i s
  exact ⟨t, ht, fun _ => getLsbD_p_of_not_touched ht⟩

/-- Settles O23: each shared operation writes the same from states that agree on what it reads. -/
theorem resultsDependOnlyOnTheReadColumn : Obligations.ResultsDependOnlyOnTheReadColumn := by
  intro i s u hpc hcount hreg hload hcarry
  obtain ⟨t, ht⟩ := exists_exec_eq_next i s
  obtain ⟨v, hv⟩ := exists_exec_eq_next i u
  obtain ⟨hpc', hcount', hreg', hbits, hcell⟩ := exec_agreeOn_writes hpc hcount ht hv hreg hload hcarry
  refine ⟨t, v, ht, hv, hpc', hcount', hreg', hbits, hcell, ?_⟩
  rintro rfl
  rw [exec_rts_runState ht, exec_rts_runState hv]

/-- Settles O29, by the byte at `pc`: each store in turn, and then every byte that is none of them. -/
theorem onlyStoresWriteMemoryAndOneByte : Obligations.OnlyStoresWriteMemoryAndOneByte := by
  intro s hr
  split_ifs with hstx hsty hsta
  · exact step_wroteByte (mk := .stx) (r := .x) hr (hstx ▸ rfl) fun _ => rfl
  · exact step_wroteByte (mk := .sty) (r := .y) hr (hsty ▸ rfl) fun _ => rfl
  · exact step_wroteByte (mk := .sta) (r := .a) hr (hsta ▸ rfl) fun _ => rfl
  · obtain ⟨t, ht⟩ := exists_exec_eq_next (fetch s) s
    have hmem : SameMemory s t :=
      sameMemory_of_storeAddr_none ht (storeAddr_fetch_eq_none hstx hsty hsta)
    exact ⟨t, step_of_running hr ▸ ht, hmem⟩

end Sys2Proof.StateRules
end

section
/-! PROOFS. Memory (20_memory.md): O30, O35, O36, O37, O40 and O46. -/

namespace Sys2Proof.MemoryRules

open Sys2Proof Sys2Proof.Machine Sys2Proof.Claims Sys2Proof.StateRules

/-! ### Reads after the memory primitives -/

/-- `MemWrite` is read back at its own address and leaves every other cell (R32). -/
theorem wroteByte_writeByte (addr : Addr) (v : Byte) (s : State) :
    WroteByte s (writeByte addr v s) addr v := by
  intro other
  simp [readByte, writeByte_mem, Memory.read_write, BitVec.toNat_inj]

theorem readByte_writeByte_of_ne {addr other : Addr} (h : other ≠ addr) (v : Byte) (s : State) :
    readByte (writeByte addr v s) other = readByte s other := by
  rw [wroteByte_writeByte, if_neg h]

/-- The address `k + 1` above `addr` is `k` above the next address. -/
theorem add_one_add_ofNat (addr : Addr) (k : Nat) :
    addr + 1 + BitVec.ofNat 16 k = addr + BitVec.ofNat 16 (k + 1) := by
  bv_omega

/-- No address is reached again before all 65536 have been passed. -/
theorem self_ne_add_ofNat (addr : Addr) {k : Nat} (hpos : 0 < k) (hk : k < 65536) :
    addr ≠ addr + BitVec.ofNat 16 k := by
  bv_omega

/-- A run of bytes leaves the addresses it does not cover. -/
theorem readByte_writeBytes_of_not_covered {bytes : List Byte} {addr other : Addr} {s : State}
    (h : ∀ k, k < bytes.length → other ≠ addr + BitVec.ofNat 16 k) :
    readByte (writeBytes addr bytes s) other = readByte s other := by
  induction bytes generalizing addr s with
  | nil => rfl
  | cons v vs ih =>
    have hfirst : other ≠ addr := by simpa using h 0 (by simp)
    have hrest : ∀ k, k < vs.length → other ≠ addr + 1 + BitVec.ofNat 16 k := by
      intro k hk
      rw [add_one_add_ofNat]
      exact h (k + 1) (by simpa using hk)
    rw [writeBytes, ih hrest, readByte_writeByte_of_ne hfirst]

/-- Byte `k` of a run that is no longer than memory stands `k` above its address (R63). The bytes after the
first do not come back to its address, so they leave it. -/
theorem readByte_writeBytes {bytes : List Byte} {addr : Addr} {s : State} (hlen : bytes.length ≤ 65536)
    {k : Nat} {v : Byte} (hv : bytes[k]? = some v) :
    readByte (writeBytes addr bytes s) (addr + BitVec.ofNat 16 k) = v := by
  induction bytes generalizing addr s k with
  | nil => simp at hv
  | cons w ws ih =>
    rw [List.length_cons] at hlen
    cases k with
    | zero =>
      obtain rfl : w = v := by simpa using hv
      have hrest : ∀ j, j < ws.length → addr ≠ addr + 1 + BitVec.ofNat 16 j := by
        intro j hj
        rw [add_one_add_ofNat]
        exact self_ne_add_ofNat addr (by omega) (by omega)
      rw [BitVec.add_zero, writeBytes, readByte_writeBytes_of_not_covered hrest,
        wroteByte_writeByte, if_pos rfl]
    | succ k =>
      rw [← add_one_add_ofNat]
      exact ih (by omega) (by simpa using hv)

/-! ### The canonical form -/

/-- A store writes one byte and keeps the form; every other instruction leaves the list of cells. -/
theorem exec_dataInv {i : Instr} {s t : State} (hs : dataInv s) (h : exec i s = .next t) :
    dataInv t := by
  rw [exec_eq] at h
  cases h
  cases i with
  | stx addr | sty addr | sta addr => exact wf_storeReg _ addr s hs
  | _ => simpa [dataInv] using hs

theorem hostEffect_dataInv (action : HostAction) {s : State} (hs : dataInv s) :
    dataInv (hostEffect action s) := by
  cases action with
  | reset => rfl
  | load addr bytes => exact wf_writeBytes bytes addr s hs
  | setReg r v => cases r <;> exact hs
  | setPc addr | start addr => exact hs

/-! ### Fetching what the bytes at `pc` decode to -/

/-- The instruction fetched is the one the three bytes at `pc` decode to (R72, R73). -/
theorem fetch_eq_of_decode {s : State} {i : Instr} {rest : List Byte}
    (h : decode [readByte s s.pc, readByte s (s.pc + 1), readByte s (s.pc + 2)] = .ok (i, rest)) :
    fetch s = i := by
  cases he : entryOf (readByte s s.pc) with
  | none j =>
    simp only [decode, he, Except.ok.injEq, Prod.mk.injEq] at h
    rw [fetch_none he, h.1]
  | immediate8 mk =>
    simp only [decode, he, Except.ok.injEq, Prod.mk.injEq] at h
    rw [fetch_immediate8 he, h.1]
  | absolute16 mk =>
    simp only [decode, he, Except.ok.injEq, Prod.mk.injEq] at h
    rw [fetch_absolute16 he, h.1]

/-! ### `Absolute16` instructions, decoded and encoded -/

theorem decode_of_absolute16 {op : Byte} {mk : Addr → Instr} (h : entryOf op = .absolute16 mk)
    (lo hi : Byte) : decode [op, lo, hi] = .ok (mk (addrOfBytes lo hi), []) := by
  simp only [decode, h]

theorem absoluteBytes_addrOfBytes (op lo hi : Byte) :
    absoluteBytes op (addrOfBytes lo hi) = [op, lo, hi] := by
  simp [absoluteBytes]

/-! ### The obligations -/

/-- Settles O36: a RUNNING step is an `exec`, and a HALTED one changes nothing. -/
theorem stepKeepsMemoryCanonical : Obligations.StepKeepsMemoryCanonical := by
  intro s t hs h
  cases hr : s.runState with
  | running => exact exec_dataInv hs (step_of_running hr ▸ h)
  | halted =>
    rw [step_of_halted hr] at h
    cases h
    exact hs

/-- Settles O37. -/
theorem hostActionKeepsMemoryCanonical : Obligations.HostActionKeepsMemoryCanonical := by
  intro action s t hs h
  obtain ⟨-, rfl⟩ := hostAct_eq_next h
  exact hostEffect_dataInv action hs

/-- Settles O30: after the store `pc` is at the stored byte, and the two bytes after it are as before. -/
theorem storedByteIsFetchedByTheNextStep : Obligations.StoredByteIsFetchedByTheNextStep := by
  intro s i rest hr hdec
  refine ⟨retire 3 (storeReg .a (s.pc + 3) s), exec_eq _ s, ?_⟩
  have hfetch : fetch (retire 3 (storeReg .a (s.pc + 3) s)) = i :=
    fetch_eq_of_decode (by simpa [readByte_storeReg, readReg, BitVec.add_assoc] using hdec)
  rw [step_of_running (by simpa using hr), hfetch]

/-- Settles O40. -/
theorem loadPlacesBytesConsecutively : Obligations.LoadPlacesBytesConsecutively := by
  intro bytes addr s hr hlen
  refine ⟨writeBytes addr bytes s, hostAct_of_halted hr _, fun _ _ hv => readByte_writeBytes hlen hv,
    fun _ hother => readByte_writeBytes_of_not_covered hother, ?_⟩
  simp [hr]

/-- Settles O35. -/
theorem memWriteSetsOneCell : Obligations.MemWriteSetsOneCell := by
  intro s addr v
  refine ⟨wroteByte_writeByte addr v s, ?_⟩
  simp

/-- Settles O46, one row of the six at a time. -/
theorem addressesAreLittleEndian : Obligations.AddressesAreLittleEndian := by
  intro lo hi
  refine ⟨addrOfBytes lo hi, toNat_addrOfBytes lo hi, ?_⟩
  simp only [List.forall_mem_cons, List.not_mem_nil, false_imp_iff, implies_true, and_true]
  refine ⟨?_, ?_, ?_, ?_, ?_, ?_⟩
  all_goals exact ⟨decode_of_absolute16 rfl lo hi, absoluteBytes_addrOfBytes _ lo hi⟩

end Sys2Proof.MemoryRules
end

section
/-! PROOFS. Encoding (30_encoding.md): O15, O42, O43, O44, O45, O47 and O48. -/

namespace Sys2Proof.EncodingRules

open Sys2Proof Sys2Proof.Machine Sys2Proof.Claims Sys2Proof.StateRules Sys2Proof.MemoryRules

/-! ### The bytes outside the table -/

theorem lookupEntry_eq_none_iff {op : Byte} {rows : List (Byte × Entry)} :
    lookupEntry op rows = none ↔ op ∉ rows.map Prod.fst := by
  induction rows with
  | nil => simp [lookupEntry]
  | cons row rows ih =>
    by_cases h : row.1 = op
    · simp [lookupEntry, h]
    · simp only [lookupEntry, if_neg h, ih, List.map_cons, List.mem_cons, Ne.symm h, false_or]

/-- The opcode column of R55. -/
theorem map_fst_opcodeTable : opcodeTable.map Prod.fst
    = [0xAE, 0xA2, 0x8E, 0xAC, 0xA0, 0x8C, 0xA9, 0x6D, 0x8D, 0xD8, 0x18, 0x60, 0xAA, 0x8A, 0xA8, 0x98] :=
  rfl

/-- The bytes the table's lookup does not find are the 240 that R57 lists: the ranges leave out 16 bytes. -/
theorem lookupEntry_eq_none_iff_listedUnknown (op : Byte) :
    lookupEntry op opcodeTable = none ↔ ListedUnknown op.toNat := by
  have := op.isLt
  simp only [lookupEntry_eq_none_iff, map_fst_opcodeTable, List.mem_cons, List.not_mem_nil, or_false,
    BitVec.toNat_eq, BitVec.reduceToNat]
  omega

/-- What holds of every row of the table, and of the no-op at every byte in no row, holds of what each
opcode decodes to. -/
theorem entryOf_induction {P : Byte → Entry → Prop} (hrow : ∀ row ∈ opcodeTable, P row.1 row.2)
    (hunlisted : ∀ op, lookupEntry op opcodeTable = none → P op (.none (.unknown op))) (op : Byte) :
    P op (entryOf op) := by
  rcases entryOf_cases op with ⟨rfl, h⟩ | ⟨rfl, h⟩ | ⟨rfl, h⟩ | ⟨rfl, h⟩ | ⟨rfl, h⟩ | ⟨rfl, h⟩ | ⟨rfl, h⟩
    | ⟨rfl, h⟩ | ⟨rfl, h⟩ | ⟨rfl, h⟩ | ⟨rfl, h⟩ | ⟨rfl, h⟩ | ⟨rfl, h⟩ | ⟨rfl, h⟩ | ⟨rfl, h⟩ | ⟨rfl, h⟩
    | ⟨hop, h⟩ <;>
    rw [h]
  on_goal 17 => exact hunlisted op hop
  all_goals exact hrow (_, _) (by simp [opcodeTable])

/-! ### Decoding, by the format of the first byte (R51 to R53) -/

theorem decode_cons_none {op : Byte} {i : Instr} (h : entryOf op = .none i) (rest : List Byte) :
    decode (op :: rest) = .ok (i, rest) := by
  simp only [decode, h]

theorem decode_cons_immediate8 {op : Byte} {mk : Byte → Instr} (h : entryOf op = .immediate8 mk)
    (imm : Byte) (rest : List Byte) : decode (op :: imm :: rest) = .ok (mk imm, rest) := by
  simp only [decode, h]

theorem decode_cons_absolute16 {op : Byte} {mk : Addr → Instr} (h : entryOf op = .absolute16 mk)
    (lo hi : Byte) (rest : List Byte) :
    decode (op :: lo :: hi :: rest) = .ok (mk (addrOfBytes lo hi), rest) := by
  simp only [decode, h]

/-- Splitting an address into its bytes and decoding them gives the address back. -/
theorem decode_absoluteBytes {op : Byte} {mk : Addr → Instr} (h : entryOf op = .absolute16 mk)
    (addr : Addr) (rest : List Byte) :
    decode (absoluteBytes op addr ++ rest) = .ok (mk addr, rest) := by
  simpa [absoluteBytes] using decode_cons_absolute16 h (loByte addr) (hiByte addr) rest

/-- Everything a list of bytes that decodes can be: an opcode, the operand bytes of its format, and the
rest. -/
theorem decode_eq_ok {bytes rest : List Byte} {i : Instr} (h : decode bytes = .ok (i, rest)) :
    ∃ op, (entryOf op = .none i ∧ bytes = op :: rest)
      ∨ (∃ mk imm, entryOf op = .immediate8 mk ∧ i = mk imm ∧ bytes = op :: imm :: rest)
      ∨ ∃ mk lo hi, entryOf op = .absolute16 mk ∧ i = mk (addrOfBytes lo hi)
          ∧ bytes = op :: lo :: hi :: rest := by
  cases bytes with
  | nil => simp [decode] at h
  | cons op tail =>
    refine ⟨op, ?_⟩
    cases he : entryOf op with
    | none j =>
      rw [decode_cons_none he] at h
      cases h
      exact .inl ⟨rfl, rfl⟩
    | immediate8 mk =>
      match tail with
      | [] => simp [decode, he] at h
      | imm :: tail =>
        rw [decode_cons_immediate8 he] at h
        cases h
        exact .inr (.inl ⟨mk, imm, rfl, rfl, rfl⟩)
    | absolute16 mk =>
      match tail with
      | [] | [_] => simp [decode, he] at h
      | lo :: hi :: tail =>
        rw [decode_cons_absolute16 he] at h
        cases h
        exact .inr (.inr ⟨mk, lo, hi, rfl, rfl, rfl⟩)

/-! ### The encoder against the table -/

/-- The instructions of a row are well formed, and the encoder gives each the row's opcode and the operand
bytes of the row's format. -/
def EncodesAs (op : Byte) : Entry → Prop
  | .none i => i.wellFormed = true ∧ encode i = [op]
  | .immediate8 mk => ∀ imm, (mk imm).wellFormed = true ∧ encode (mk imm) = [op, imm]
  | .absolute16 mk => ∀ addr, (mk addr).wellFormed = true ∧ encode (mk addr) = absoluteBytes op addr

theorem entryOf_encodesAs (op : Byte) : EncodesAs op (entryOf op) := by
  refine entryOf_induction ?rows (fun op h => ⟨Option.isNone_iff_eq_none.mpr h, rfl⟩) op
  case rows =>
    simp only [opcodeTable, List.forall_mem_cons, List.not_mem_nil, false_imp_iff, EncodesAs,
      Instr.wellFormed, encode, implies_true, and_self]

theorem listedLength_of_unlisted {op : Byte} (h : lookupEntry op opcodeTable = none) :
    listedLength op = 1 := by
  simp only [lookupEntry_eq_none_iff, map_fst_opcodeTable, List.mem_cons, List.not_mem_nil, or_false,
    not_or] at h
  simp only [listedLength, List.mem_cons, List.not_mem_nil, h, or_self, if_false]

/-- The format the decoder finds has the length that R56 lists. -/
theorem listedLength_eq_length_entryOf (op : Byte) : listedLength op = (entryOf op).length := by
  refine entryOf_induction (P := fun op e => listedLength op = e.length) ?rows
    (fun _ h => listedLength_of_unlisted h) op
  case rows => decide

/-- Where at least two bytes follow the opcode, none is missing. -/
theorem exists_decode_eq_drop (op b c : Byte) (rest : List Byte) :
    ∃ i, decode (op :: b :: c :: rest) = .ok (i, (op :: b :: c :: rest).drop (entryOf op).length) := by
  cases he : entryOf op with
  | none i => exact ⟨i, decode_cons_none he _⟩
  | immediate8 mk => exact ⟨mk b, decode_cons_immediate8 he b _⟩
  | absolute16 mk => exact ⟨mk (addrOfBytes b c), decode_cons_absolute16 he b c rest⟩

/-! ### The mnemonics of the assembly text (R61) -/

/-- The two bytes of an address written as a number. -/
theorem absoluteBytes_ofNat (op : Byte) {n : Nat} (hn : n < 65536) :
    absoluteBytes op (BitVec.ofNat 16 n) = [op, BitVec.ofNat 8 (n % 256), BitVec.ofNat 8 (n / 256)] := by
  have hlo : loByte (BitVec.ofNat 16 n) = BitVec.ofNat 8 (n % 256) := by
    apply BitVec.eq_of_toNat_eq
    simp [toNat_loByte]
  have hhi : hiByte (BitVec.ofNat 16 n) = BitVec.ofNat 8 (n / 256) := by
    apply BitVec.eq_of_toNat_eq
    rw [toNat_hiByte, BitVec.toNat_ofNat, BitVec.toNat_ofNat]
    omega
  rw [absoluteBytes, hlo, hhi]

section
variable {mnemonic : List Char} {op : Byte}

theorem emitMnemonic_none {i : Instr} (hm : lookupMnemonic mnemonic mnemonicTable = some (.none i))
    (hop : entryOf op = .none i) : emitMnemonic mnemonic none = .ok [op] := by
  obtain ⟨-, henc⟩ := hop ▸ entryOf_encodesAs op
  simp only [emitMnemonic, hm, emitInstr, henc]

theorem emitMnemonic_immediate8 {mk : Byte → Instr}
    (hm : lookupMnemonic mnemonic mnemonicTable = some (.immediate8 mk))
    (hop : entryOf op = .immediate8 mk) {n : Nat} (hn : n < 256) :
    emitMnemonic mnemonic (some n) = .ok [op, BitVec.ofNat 8 n] := by
  obtain ⟨-, henc⟩ := (hop ▸ entryOf_encodesAs op) (BitVec.ofNat 8 n)
  simp only [emitMnemonic, hm, emitInstr, if_pos hn, henc]

theorem emitMnemonic_absolute16 {mk : Addr → Instr}
    (hm : lookupMnemonic mnemonic mnemonicTable = some (.absolute16 mk))
    (hop : entryOf op = .absolute16 mk) {n : Nat} (hn : n < 65536) :
    emitMnemonic mnemonic (some n)
      = .ok [op, BitVec.ofNat 8 (n % 256), BitVec.ofNat 8 (n / 256)] := by
  obtain ⟨-, henc⟩ := (hop ▸ entryOf_encodesAs op) (BitVec.ofNat 16 n)
  simp only [emitMnemonic, hm, emitInstr, if_pos hn, henc, absoluteBytes_ofNat op hn]

end

/-- A literal begins with a digit (R60), and `#` is none. -/
theorem decimalValue_cons_hash (cs : List Char) : decimalValue ('#' :: cs) = none := by
  rfl

/-! ### The obligations -/

/-- Settles O42, by the format of the instruction; the no-op is well formed only for a byte in no row. -/
theorem decodeOfEncodeIsTheInstruction : Obligations.DecodeOfEncodeIsTheInstruction := by
  intro i rest hwf
  cases i with
  | ldx addr | stx addr | ldy addr | sty addr | adc addr | sta addr =>
    exact decode_absoluteBytes rfl addr rest
  | ldxim imm | ldyim imm | ldaim imm => exact decode_cons_immediate8 rfl imm rest
  | cld | clc | rts | tax | txa | tay | tya => exact decode_cons_none rfl rest
  | unknown op => exact decode_cons_none (entryOf_unlisted (Option.isNone_iff_eq_none.mp hwf)) rest

/-- Settles O43: the encoder follows the row that the decoder found. -/
theorem encodeOfDecodeIsTheBytes : Obligations.EncodeOfDecodeIsTheBytes := by
  intro bytes i rest h
  obtain ⟨op, ⟨he, rfl⟩ | ⟨mk, imm, he, rfl, rfl⟩ | ⟨mk, lo, hi, he, rfl, rfl⟩⟩ := decode_eq_ok h
  all_goals have henc := he ▸ entryOf_encodesAs op
  · obtain ⟨hwf, hbytes⟩ := henc
    exact ⟨hwf, by rw [hbytes]; rfl⟩
  · obtain ⟨hwf, hbytes⟩ := henc imm
    exact ⟨hwf, by rw [hbytes]; rfl⟩
  · obtain ⟨hwf, hbytes⟩ := henc (addrOfBytes lo hi)
    exact ⟨hwf, by rw [hbytes, absoluteBytes_addrOfBytes]; rfl⟩

/-- Settles O45. -/
theorem firstByteDecidesTheLength : Obligations.FirstByteDecidesTheLength := by
  intro op b c rest
  rw [listedLength_eq_length_entryOf]
  exact exists_decode_eq_drop op b c rest

/-- Settles O47, from O43: the no-op is well formed only for a listed byte, and its encoding is that byte. -/
theorem noTableByteDecodesToTheNoOp : Obligations.NoTableByteDecodesToTheNoOp := by
  intro op u tail rest h
  obtain ⟨hwf, hbytes⟩ := encodeOfDecodeIsTheBytes _ _ _ h
  obtain ⟨rfl, rfl⟩ : u = op ∧ rest = tail := by simpa [encode] using hbytes
  have hunlisted : lookupEntry u opcodeTable = none := Option.isNone_iff_eq_none.mp hwf
  exact ⟨(lookupEntry_eq_none_iff_listedUnknown u).mp hunlisted, rfl, rfl⟩

/-- Settles O15: a listed byte is in no row, and the no-op's whole effect is the tail of a step. -/
theorem unknownBytesAreOneByteNoOps : Obligations.UnknownBytesAreOneByteNoOps := by
  intro op rest s hop
  have hunlisted : lookupEntry op opcodeTable = none := (lookupEntry_eq_none_iff_listedUnknown op).mpr hop
  refine ⟨decode_cons_none (entryOf_unlisted hunlisted) rest, retire 1 s, exec_eq _ s, ?_⟩
  simp [SameMemory, readByte_retire, BitVec.toNat_add]

/-- Settles O44, one row of the table at a time. -/
theorem tableBytesDecodeToTheirInstructions : Obligations.TableBytesDecodeToTheirInstructions := by
  intro b c
  have absolute {op mk} (h : entryOf op = .absolute16 mk) := decode_of_absolute16 h b c
  have immediate {op mk} (h : entryOf op = .immediate8 mk) := decode_cons_immediate8 h b [c]
  have single {op i} (h : entryOf op = .none i) := decode_cons_none h [b, c]
  exact ⟨absolute rfl, immediate rfl, absolute rfl, absolute rfl, immediate rfl, absolute rfl, immediate rfl,
    absolute rfl, absolute rfl, single rfl, single rfl, single rfl, single rfl, single rfl, single rfl,
    single rfl⟩

/-- Settles O48, one mnemonic at a time. -/
theorem mnemonicsEmitTheirBytes : Obligations.MnemonicsEmitTheirBytes := by
  refine ⟨fun n hn => ?_, fun n hn => ?_, emitMnemonic_none rfl rfl, emitMnemonic_none rfl rfl,
    emitMnemonic_none rfl rfl, emitMnemonic_none rfl rfl, emitMnemonic_none rfl rfl,
    emitMnemonic_none rfl rfl, emitMnemonic_none rfl rfl, decimalValue_cons_hash⟩
  · refine ⟨?_, ?_, ?_, ?_, ?_, ?_⟩
    all_goals exact emitMnemonic_absolute16 rfl rfl hn
  · refine ⟨?_, ?_, ?_⟩
    all_goals exact emitMnemonic_immediate8 rfl rfl hn

end Sys2Proof.EncodingRules
end

section
/-! PROOFS. The engine's cycle (40_engine_cycle.md): O25, O26, O27, O32 and O33. -/

namespace Sys2Proof.EngineRules

open Sys2Proof Sys2Proof.Machine Sys2Proof.Claims Sys2Proof.StateRules Sys2Proof.MemoryRules
  Sys2Proof.EncodingRules

/-! ### The tail of a step, instruction by instruction -/

/-- R75: `pc` advances by the number of bytes that encode the instruction. -/
theorem exec_pc_eq {i : Instr} {s t : State} (h : exec i s = .next t) :
    t.pc = s.pc + BitVec.ofNat 16 (encode i).length := by
  rw [exec_eq] at h
  cases h
  cases i with
  | ldx _ | stx _ | ldy _ | sty _ | adc _ | sta _ => simp [encode, absoluteBytes]
  | ldxim _ | ldyim _ | ldaim _ => simp [encode]
  | cld | clc | rts | tax | txa | tay | tya | unknown _ => simp [encode]

/-- R76: every instruction is counted. -/
theorem exec_icount_eq {i : Instr} {s t : State} (h : exec i s = .next t) :
    t.icount = s.icount + 1 := by
  rw [exec_eq] at h
  cases h
  cases i <;> simp

/-- R77: every instruction but RTS leaves the run state. -/
theorem exec_runState_of_ne_rts {i : Instr} {s t : State} (h : exec i s = .next t) (hi : i ≠ .rts) :
    t.runState = s.runState := by
  rw [exec_eq] at h
  cases h
  cases i with
  | rts => exact absurd rfl hi
  | _ => simp

/-! ### The fetched instruction and the bytes at `pc` -/

/-- The bytes that encode the fetched instruction are the bytes at `pc`, as many as R56 lists for the
first (R73). -/
theorem encode_fetch (s : State) :
    encode (fetch s) = [readByte s s.pc, readByte s (s.pc + 1), readByte s (s.pc + 2)].take
      (listedLength (readByte s s.pc)) := by
  obtain ⟨i, hdec⟩ :=
    firstByteDecidesTheLength (readByte s s.pc) (readByte s (s.pc + 1)) (readByte s (s.pc + 2)) []
  obtain ⟨-, hbytes⟩ := encodeOfDecodeIsTheBytes _ _ _ hdec
  rw [fetch_eq_of_decode hdec]
  exact List.append_cancel_right (hbytes.trans (List.take_append_drop _ _).symm)

/-- The lengths of R56 are 1, 2 and 3. -/
theorem listedLength_pos_and_le (op : Byte) : 0 < listedLength op ∧ listedLength op ≤ 3 := by
  unfold listedLength
  split_ifs <;> decide

theorem length_encode_fetch (s : State) :
    (encode (fetch s)).length = listedLength (readByte s s.pc) := by
  obtain ⟨-, hle⟩ := listedLength_pos_and_le (readByte s s.pc)
  rw [encode_fetch, List.length_take]
  exact Nat.min_eq_left hle

theorem head?_encode_fetch (s : State) : (encode (fetch s)).head? = some (readByte s s.pc) := by
  obtain ⟨hpos, -⟩ := listedLength_pos_and_le (readByte s s.pc)
  rw [encode_fetch, List.head?_take, if_neg hpos.ne', List.head?_cons]

/-- RTS is fetched from the byte 0x60 and from no other (R55). -/
theorem fetch_eq_rts_iff (s : State) : fetch s = .rts ↔ readByte s s.pc = 0x60 := by
  constructor
  · intro h
    have hhead := head?_encode_fetch s
    rw [h] at hhead
    exact (Option.some.inj hhead).symm
  · intro h
    exact fetch_none (h ▸ rfl)

/-! ### One step of a RUNNING engine -/

/-- A RUNNING step completes, and leads where the fetched instruction leads (R70, R74). -/
theorem exists_step_eq_exec_fetch {s : State} (hr : s.runState = .running) :
    ∃ t, step s = .next t ∧ exec (fetch s) s = .next t := by
  obtain ⟨t, ht⟩ := exists_exec_eq_next (fetch s) s
  exact ⟨t, step_of_running hr ▸ ht, ht⟩

/-- A step that fetches no 0x60 leaves the engine RUNNING and is counted (R76, R77). -/
theorem exists_running_step {s : State} (hr : s.runState = .running) (hop : readByte s s.pc ≠ 0x60) :
    ∃ t, step s = .next t ∧ t.runState = .running ∧ t.icount = s.icount + 1 := by
  obtain ⟨t, hstep, hexec⟩ := exists_step_eq_exec_fetch hr
  have hi : fetch s ≠ .rts := mt (fetch_eq_rts_iff s).mp hop
  exact ⟨t, hstep, (exec_runState_of_ne_rts hexec hi).trans hr, exec_icount_eq hexec⟩

/-! ### The obligations -/

/-- Settles O25. -/
theorem stepRunsTheDecodedInstruction : Obligations.StepRunsTheDecodedInstruction := by
  intro s i rest hr hdec
  rw [step_of_running hr, fetch_eq_of_decode hdec]

/-- Settles O26: the step advances `pc` by the length of the fetched instruction's encoding, which is the
length listed for the byte at `pc`. -/
theorem everyStepAdvancesPcAndCount : Obligations.EveryStepAdvancesPcAndCount := by
  intro s hr
  obtain ⟨t, hstep, hexec⟩ := exists_step_eq_exec_fetch hr
  refine ⟨t, hstep, ?_, exec_icount_eq hexec⟩
  rw [exec_pc_eq hexec, length_encode_fetch, BitVec.toNat_add, BitVec.toNat_ofNat, Nat.add_mod_mod]

/-- Settles O27. -/
theorem stepHaltsExactlyOnOpcodeRts : Obligations.StepHaltsExactlyOnOpcodeRts := by
  intro s hr
  by_cases hop : readByte s s.pc = 0x60
  · obtain ⟨t, hstep, hexec⟩ := exists_step_eq_exec_fetch hr
    rw [(fetch_eq_rts_iff s).mpr hop] at hexec
    exact ⟨t, hstep, fun _ => exec_rts_runState hexec, fun hne => absurd hop hne⟩
  · obtain ⟨t, hstep, hrun, -⟩ := exists_running_step hr hop
    exact ⟨t, hstep, fun heq => absurd heq hop, fun _ => hrun⟩

/-- Settles O32, by induction on the number of steps: every step of every state has a next state. -/
theorem everyRunIsSafe : Obligations.EveryRunIsSafe := by
  intro s n
  induction n generalizing s with
  | zero => exact ⟨s, (reaches_zero s s).mpr rfl⟩
  | succ n ih =>
    obtain ⟨u, hstep⟩ := exists_step_eq_next s
    obtain ⟨t, ht⟩ := ih u
    exact ⟨t, (reaches_succ hstep).mpr ht⟩

/-- Settles O33, by induction on the number of steps: the first step stays RUNNING, and what the rest of the
run reaches, the whole run reaches one step later. -/
theorem runWithoutRtsGoesOn : Obligations.RunWithoutRtsGoesOn := by
  intro n
  induction n with
  | zero => exact fun s hr _ => ⟨s, (reaches_zero s s).mpr rfl, hr, rfl⟩
  | succ n ih =>
    intro s hr hno
    have hop : readByte s s.pc ≠ 0x60 := hno 0 s n.succ_pos ((reaches_zero s s).mpr rfl)
    obtain ⟨u, hstep, hrun, hcount⟩ := exists_running_step hr hop
    have hrest : ∀ k t, k < n → Reaches k u t → readByte t t.pc ≠ 0x60 := fun k t hk hkt =>
      hno (k + 1) t (Nat.succ_lt_succ hk) ((reaches_succ hstep).mpr hkt)
    obtain ⟨t, ht, htrun, htcount⟩ := ih u hrun hrest
    refine ⟨t, (reaches_succ hstep).mpr ht, htrun, ?_⟩
    omega

end Sys2Proof.EngineRules
end

section
/-! PROOFS. Loads and stores (41_load_store.md): O1 to O8. -/

namespace Sys2Proof.LoadStoreRules

open Sys2Proof Sys2Proof.Machine Sys2Proof.Claims Sys2Proof.StateRules

/-! ### The bytes, the flags and the tail of a step, as the statements word them -/

/-- The encoder's three bytes hold the address low byte first (R53). -/
theorem encodedAbsolute_of_encode_eq {i : Instr} {op : Byte} {addr : Addr}
    (h : encode i = absoluteBytes op addr) : EncodedAbsolute i op addr := by
  refine ⟨loByte addr, hiByte addr, h, ?_⟩
  rw [← toNat_addrOfBytes, addrOfBytes_lo_hi]

/-- N is set iff the value is above 127 (R18). -/
theorem negativeOf_eq_decide (v : Byte) : negativeOf v = decide (v.toNat > 127) :=
  (BitVec.msb_eq_getLsbD_last v).symm.trans (BitVec.msb_eq_decide v)

/-- Z is set iff the value is 0 (R19). -/
theorem zeroOf_eq_decide (v : Byte) : zeroOf v = decide (v.toNat = 0) :=
  decide_eq_decide.mpr BitVec.toNat_eq

/-- Bits 7 and 1 follow the byte moved, and every other bit stays (R17, R79). -/
theorem movedNZ_retire_loadReg (length : Nat) (r : Reg) (v : Byte) (s : State) :
    MovedNZ v s.p (retire length (loadReg r v s)).p := by
  rw [retire_p]
  refine ⟨?_, ?_, fun k h7 h1 => ?_⟩
  · rw [getLsbD_loadReg_p, if_neg (by decide), if_pos rfl, negativeOf_eq_decide]
  · rw [getLsbD_loadReg_p, if_pos rfl, zeroOf_eq_decide]
  · rw [getLsbD_loadReg_p, if_neg h1, if_neg h7]

/-- The tail after an operation that left `pc`, the count and the run state (R14, R75, R76). -/
theorem retired_retire (length : Nat) {s u : State} (hpc : u.pc = s.pc) (hcount : u.icount = s.icount)
    (hrun : u.runState = s.runState) : Retired length s (retire length u) := by
  refine ⟨?_, ?_, hrun⟩
  · rw [retire_pc, hpc, BitVec.toNat_add, BitVec.toNat_ofNat, Nat.add_mod_mod]
  · rw [retire_icount, hcount]

theorem retired_retire_loadReg (length : Nat) (r : Reg) (v : Byte) (s : State) :
    Retired length s (retire length (loadReg r v s)) :=
  retired_retire length (loadReg_pc ..) (loadReg_icount ..) (loadReg_runState ..)

theorem retired_retire_storeReg (length : Nat) (r : Reg) (addr : Addr) (s : State) :
    Retired length s (retire length (storeReg r addr s)) :=
  retired_retire length (storeReg_pc ..) (storeReg_icount ..) (storeReg_runState ..)

/-! ### The obligations

Each proof names the shared operations that `exec` runs; what they leave of the registers and of memory,
they leave by definition. -/

/-- Settles O1. -/
theorem ldxLoadsXFromMemory : Obligations.LdxLoadsXFromMemory := fun addr s =>
  ⟨encodedAbsolute_of_encode_eq rfl, retire 3 (loadReg .x (readByte s addr) s), exec_eq _ s, rfl,
    movedNZ_retire_loadReg .., rfl, rfl, rfl, readByte_of_mem_eq rfl, retired_retire_loadReg ..⟩

/-- Settles O2. -/
theorem ldximLoadsXWithLiteral : Obligations.LdximLoadsXWithLiteral := fun imm s =>
  ⟨rfl, retire 2 (loadReg .x imm s), exec_eq _ s, rfl,
    movedNZ_retire_loadReg .., rfl, rfl, rfl, readByte_of_mem_eq rfl, retired_retire_loadReg ..⟩

/-- Settles O3. -/
theorem stxStoresX : Obligations.StxStoresX := fun addr s =>
  ⟨encodedAbsolute_of_encode_eq rfl, retire 3 (storeReg .x addr s), exec_eq _ s,
    wroteByte_storeReg _ addr s, rfl, rfl, rfl, rfl, rfl, retired_retire_storeReg ..⟩

/-- Settles O4. -/
theorem ldyLoadsYFromMemory : Obligations.LdyLoadsYFromMemory := fun addr s =>
  ⟨encodedAbsolute_of_encode_eq rfl, retire 3 (loadReg .y (readByte s addr) s), exec_eq _ s, rfl,
    movedNZ_retire_loadReg .., rfl, rfl, rfl, readByte_of_mem_eq rfl, retired_retire_loadReg ..⟩

/-- Settles O5. -/
theorem ldyimLoadsYWithLiteral : Obligations.LdyimLoadsYWithLiteral := fun imm s =>
  ⟨rfl, retire 2 (loadReg .y imm s), exec_eq _ s, rfl,
    movedNZ_retire_loadReg .., rfl, rfl, rfl, readByte_of_mem_eq rfl, retired_retire_loadReg ..⟩

/-- Settles O6. -/
theorem styStoresY : Obligations.StyStoresY := fun addr s =>
  ⟨encodedAbsolute_of_encode_eq rfl, retire 3 (storeReg .y addr s), exec_eq _ s,
    wroteByte_storeReg _ addr s, rfl, rfl, rfl, rfl, rfl, retired_retire_storeReg ..⟩

/-- Settles O7. -/
theorem ldaimLoadsAWithLiteral : Obligations.LdaimLoadsAWithLiteral := fun imm s =>
  ⟨rfl, retire 2 (loadReg .a imm s), exec_eq _ s, rfl,
    movedNZ_retire_loadReg .., rfl, rfl, rfl, readByte_of_mem_eq rfl, retired_retire_loadReg ..⟩

/-- Settles O8. -/
theorem staStoresA : Obligations.StaStoresA := fun addr s =>
  ⟨encodedAbsolute_of_encode_eq rfl, retire 3 (storeReg .a addr s), exec_eq _ s,
    wroteByte_storeReg _ addr s, rfl, rfl, rfl, rfl, rfl, retired_retire_storeReg ..⟩

end Sys2Proof.LoadStoreRules
end

section
/-! PROOFS. Arithmetic (42_arithmetic.md): O9 and O10. -/

namespace Sys2Proof.ArithmeticRules

open Sys2Proof Sys2Proof.Machine Sys2Proof.Claims Sys2Proof.StateRules Sys2Proof.LoadStoreRules

/-! ### ADC's sum and flags, as numbers (R100) -/

section
variable (a m : Byte) (cin : Bool) (p : Byte)

theorem toNat_adcResult_eq_adcSum_mod : (adcResult a m cin).toNat = adcSum a m cin % 256 :=
  toNat_adcResult a m cin

/-- R20: V is set iff both operands are above 127 and the result is not, or the reverse. -/
theorem adcOverflow_eq_decide : adcOverflow a m cin
    = decide ((a.toNat ≥ 128 ∧ m.toNat ≥ 128 ∧ adcSum a m cin % 256 < 128)
      ∨ (a.toNat < 128 ∧ m.toNat < 128 ∧ adcSum a m cin % 256 > 127)) := by
  have hsign (v : Byte) : v.getLsbD 7 = decide (v.toNat > 127) := negativeOf_eq_decide v
  rw [adcOverflow, hsign, hsign, hsign, toNat_adcResult_eq_adcSum_mod, Bool.eq_iff_iff]
  simp only [Bool.and_eq_true, beq_iff_eq, bne_iff_ne, ne_eq, decide_eq_decide, decide_eq_true_eq]
  omega

theorem getLsbD_adcFlags_c : (adcFlags a m cin p).getLsbD 0 = decide (adcSum a m cin > 255) :=
  getLsbD_adcFlags a m cin p 0

theorem getLsbD_adcFlags_z : (adcFlags a m cin p).getLsbD 1 = decide (adcSum a m cin % 256 = 0) := by
  rw [← toNat_adcResult_eq_adcSum_mod, ← zeroOf_eq_decide]
  exact getLsbD_adcFlags a m cin p 1

theorem getLsbD_adcFlags_n : (adcFlags a m cin p).getLsbD 7 = decide (adcSum a m cin % 256 > 127) := by
  rw [← toNat_adcResult_eq_adcSum_mod, ← negativeOf_eq_decide]
  exact getLsbD_adcFlags a m cin p 7

end

/-- The carry-in of ADC is bit 0 of `p`, added as 0 or 1. -/
theorem adcSum_readFlag_c (a m p : Byte) :
    adcSum a m (readFlag .c p) = a.toNat + m.toNat + (if p.getLsbD 0 then 1 else 0) := by
  rw [← Bool.cond_eq_ite]
  rfl

theorem retired_retire_addWithCarry (length : Nat) (m : Byte) (s : State) :
    Retired length s (retire length (addWithCarry m s)) :=
  retired_retire length (addWithCarry_pc ..) (addWithCarry_icount ..) (addWithCarry_runState ..)

/-! ### States that differ in D alone (R102) -/

/-- Every bit but bit 3 is the same. -/
def AgreeButD (p q : Byte) : Prop := ∀ k, k ≠ 3 → q.getLsbD k = p.getLsbD k

theorem AgreeButD.writeFlag {p q : Byte} (h : AgreeButD p q) (f : Flag) (v : Bool) :
    AgreeButD (writeFlag f v p) (writeFlag f v q) := by
  intro k hk
  rw [getLsbD_writeFlag, getLsbD_writeFlag, h k hk]

theorem agreeButD_flip (p : Byte) : AgreeButD p (p ^^^ 0x08) := by
  intro k hk
  have hmask : (0x08 : Byte) = BitVec.twoPow 8 3 := rfl
  simp [hmask, BitVec.getLsbD_twoPow, hk.symm]

/-- The second state is the first but for bit 3 of `p`. -/
def SameButD (s u : State) : Prop := ∃ q, u = { s with p := q } ∧ AgreeButD s.p q

namespace SameButD

variable {s u : State} (h : SameButD s u)
include h

theorem readReg_eq (r : Reg) : readReg r u = readReg r s := by
  obtain ⟨q, rfl, -⟩ := h
  cases r <;> rfl

theorem readByte_eq (addr : Addr) : readByte u addr = readByte s addr := by
  obtain ⟨q, rfl, -⟩ := h
  rfl

theorem retire (length : Nat) : SameButD (retire length s) (retire length u) := by
  obtain ⟨q, rfl, hq⟩ := h
  exact ⟨q, rfl, hq⟩

theorem halt : SameButD (halt s) (halt u) := by
  obtain ⟨q, rfl, hq⟩ := h
  exact ⟨q, rfl, hq⟩

theorem loadReg (r : Reg) {v w : Byte} (hv : w = v) : SameButD (loadReg r v s) (loadReg r w u) := by
  subst hv
  obtain ⟨q, rfl, hq⟩ := h
  cases r <;> exact ⟨_, rfl, (hq.writeFlag .n _).writeFlag .z _⟩

theorem storeReg (r : Reg) (addr : Addr) : SameButD (storeReg r addr s) (storeReg r addr u) := by
  obtain ⟨q, rfl, hq⟩ := h
  cases r <;> exact ⟨q, rfl, hq⟩

theorem clearFlag (f : Flag) : SameButD (clearFlag f s) (clearFlag f u) := by
  obtain ⟨q, rfl, hq⟩ := h
  exact ⟨_, rfl, hq.writeFlag f false⟩

/-- ADC reads no bit of `p` but C. -/
theorem addWithCarry {m n : Byte} (hm : n = m) : SameButD (addWithCarry m s) (addWithCarry n u) := by
  subst hm
  obtain ⟨q, rfl, hq⟩ := h
  have hc : readFlag .c q = readFlag .c s.p := hq 0 (by decide)
  simp only [Machine.addWithCarry, hc]
  exact ⟨_, rfl, (((hq.writeFlag .c _).writeFlag .z _).writeFlag .n _).writeFlag .v _⟩

/-- R102: no instruction reads D, so its results agree when its start states do. -/
theorem exec {i : Instr} {t v : State} (ht : exec i s = .next t) (hv : exec i u = .next v) :
    SameButD t v := by
  rw [exec_eq] at ht hv
  cases ht
  cases hv
  cases i with
  | ldx addr | ldy addr => exact (h.loadReg _ (h.readByte_eq addr)).retire 3
  | ldxim _ | ldyim _ | ldaim _ => exact (h.loadReg _ rfl).retire 2
  | tax | tay => exact (h.loadReg _ (h.readReg_eq .a)).retire 1
  | txa => exact (h.loadReg .a (h.readReg_eq .x)).retire 1
  | tya => exact (h.loadReg .a (h.readReg_eq .y)).retire 1
  | stx addr | sty addr | sta addr => exact (h.storeReg _ addr).retire 3
  | adc addr => exact (h.addWithCarry (h.readByte_eq addr)).retire 3
  | cld => exact (h.clearFlag .d).retire 1
  | clc => exact (h.clearFlag .c).retire 1
  | rts => exact (h.retire 1).halt
  | unknown _ => exact h.retire 1

end SameButD

/-! ### The obligations -/

/-- Settles O9. -/
theorem adcAddsWithCarryAndSetsNVZC : Obligations.AdcAddsWithCarryAndSetsNVZC := by
  intro addr s
  refine ⟨encodedAbsolute_of_encode_eq rfl, retire 3 (addWithCarry (readByte s addr) s), exec_eq _ s, ?_,
    rfl, rfl, rfl, readByte_of_mem_eq rfl, retired_retire_addWithCarry ..⟩
  simp only [← adcSum_readFlag_c]
  exact ⟨toNat_adcResult_eq_adcSum_mod .., getLsbD_adcFlags_c .., getLsbD_adcFlags_z ..,
    getLsbD_adcFlags_n .., (getLsbD_adcFlags _ _ _ _ 6).trans (adcOverflow_eq_decide ..),
    fun _ => getLsbD_p_of_not_touched (exec_eq (.adc addr) s)⟩

/-- Settles O10: each shared operation keeps two states that differ in D alone so. -/
theorem decimalFlagIsNeverRead : Obligations.DecimalFlagIsNeverRead := by
  refine ⟨fun i s => ?_, fun addr s => ?_, fun s => ?_⟩
  · obtain ⟨t, ht⟩ := exists_exec_eq_next i s
    obtain ⟨u, hu⟩ := exists_exec_eq_next i { s with p := s.p ^^^ 0x08 }
    have hflip : SameButD s { s with p := s.p ^^^ 0x08 } := ⟨_, rfl, agreeButD_flip s.p⟩
    obtain ⟨q, rfl, hq⟩ := hflip.exec ht hu
    exact ⟨t, _, ht, hu, rfl, rfl, rfl, rfl, rfl, readByte_of_mem_eq rfl, rfl, rfl, hq⟩
  · obtain ⟨-, t, ht, ⟨hsum, -⟩, -⟩ := adcAddsWithCarryAndSetsNVZC addr s
    exact ⟨t, ht, hsum⟩
  · refine ⟨retire 1 (clearFlag .d s), exec_eq .cld s, ?_⟩
    rw [retire_p, getLsbD_clearFlag, flagIndex_d, if_pos rfl]

end Sys2Proof.ArithmeticRules
end

section
/-! PROOFS. Flag-clear instructions (43_flag_clear.md): O11, O12 and O13. -/

namespace Sys2Proof.FlagClearRules

open Sys2Proof Sys2Proof.Machine Sys2Proof.Claims Sys2Proof.StateRules Sys2Proof.EngineRules
  Sys2Proof.LoadStoreRules

/-! ### A cleared flag (R17, R105, R106) -/

theorem getLsbD_clearFlag_same (f : Flag) (s : State) :
    (clearFlag f s).p.getLsbD (flagIndex f) = false := by
  rw [getLsbD_clearFlag, if_pos rfl]

theorem getLsbD_clearFlag_of_ne {f : Flag} {k : Nat} (hk : k ≠ flagIndex f) (s : State) :
    (clearFlag f s).p.getLsbD k = s.p.getLsbD k := by
  rw [getLsbD_clearFlag, if_neg hk]

theorem retired_retire_clearFlag (length : Nat) (f : Flag) (s : State) :
    Retired length s (retire length (clearFlag f s)) :=
  retired_retire length (clearFlag_pc ..) (clearFlag_icount ..) (clearFlag_runState ..)

/-! ### Which instructions change C and V (R107) -/

/-- V is in ADC's "Flags touched" entry alone (R55). -/
theorem eq_adc_of_v_touched {i : Instr} (h : 6 ∈ touchedBits i) : ∃ addr, i = .adc addr := by
  cases i with
  | adc addr => exact ⟨addr, rfl⟩
  | _ => simp [touchedBits] at h

/-- C is in the "Flags touched" entries of ADC and CLC alone (R55). -/
theorem eq_adc_or_clc_of_c_touched {i : Instr} (h : 0 ∈ touchedBits i) :
    (∃ addr, i = .adc addr) ∨ i = .clc := by
  cases i with
  | adc addr => exact .inl ⟨addr, rfl⟩
  | clc => exact .inr rfl
  | _ => simp [touchedBits] at h

/-- R106: CLC ends with C clear. -/
theorem exec_clc_c_eq_false {s t : State} (h : exec .clc s = .next t) : t.p.getLsbD 0 = false := by
  rw [exec_eq] at h
  cases h
  exact getLsbD_clearFlag_same .c s

/-- The byte at `pc` is the first byte of the fetched instruction's encoding (R73). -/
theorem readByte_pc_of_fetch_eq {s : State} {i : Instr} {op : Byte} (hi : fetch s = i)
    (hop : (encode i).head? = some op) : readByte s s.pc = op := by
  subst hi
  exact Option.some.inj ((head?_encode_fetch s).symm.trans hop)

/-- An instruction that changes V was fetched from 0x6D. -/
theorem opcode_of_v_changed {s t : State} (h : exec (fetch s) s = .next t)
    (hv : t.p.getLsbD 6 ≠ s.p.getLsbD 6) : readByte s s.pc = 0x6D := by
  have htouched : 6 ∈ touchedBits (fetch s) := of_not_not (mt (getLsbD_p_of_not_touched h) hv)
  obtain ⟨addr, hadc⟩ := eq_adc_of_v_touched htouched
  exact readByte_pc_of_fetch_eq hadc rfl

/-- An instruction that changes C was fetched from 0x6D, or from 0x18 and clears C. -/
theorem opcode_of_c_changed {s t : State} (h : exec (fetch s) s = .next t)
    (hc : t.p.getLsbD 0 ≠ s.p.getLsbD 0) :
    readByte s s.pc = 0x6D ∨ (readByte s s.pc = 0x18 ∧ t.p.getLsbD 0 = false) := by
  have htouched : 0 ∈ touchedBits (fetch s) := of_not_not (mt (getLsbD_p_of_not_touched h) hc)
  obtain ⟨addr, hadc⟩ | hclc := eq_adc_or_clc_of_c_touched htouched
  · exact .inl (readByte_pc_of_fetch_eq hadc rfl)
  · exact .inr ⟨readByte_pc_of_fetch_eq hclc rfl, exec_clc_c_eq_false (hclc ▸ h)⟩

/-! ### The obligations -/

/-- Settles O13: a step that changes C or V executes an instruction that touches it, and only CLC, which
clears C, is not ADC. -/
theorem onlyAdcAndClcChangeCarryAndOverflow : Obligations.OnlyAdcAndClcChangeCarryAndOverflow := by
  intro s hr
  obtain ⟨t, hstep, hexec⟩ := exists_step_eq_exec_fetch hr
  refine ⟨t, hstep, fun hbefore hafter => ?_, fun hbefore hafter => ?_, opcode_of_v_changed hexec⟩
  · have hne : t.p.getLsbD 0 ≠ s.p.getLsbD 0 := by rw [hbefore, hafter]; decide
    obtain hadc | ⟨-, hclear⟩ := opcode_of_c_changed hexec hne
    · exact hadc
    · exact absurd (hclear.symm.trans hafter) Bool.false_ne_true
  · have hne : t.p.getLsbD 0 ≠ s.p.getLsbD 0 := by rw [hbefore, hafter]; decide
    exact (opcode_of_c_changed hexec hne).imp_right And.left

/-- Settles O11. -/
theorem cldClearsBitThree : Obligations.CldClearsBitThree := fun s =>
  ⟨rfl, retire 1 (clearFlag .d s), exec_eq _ s, getLsbD_clearFlag_same .d s,
    fun _ hk => getLsbD_clearFlag_of_ne hk s, rfl, rfl, rfl, rfl, rfl, readByte_of_mem_eq rfl,
    retired_retire_clearFlag ..⟩

/-- Settles O12. -/
theorem clcClearsBitZero : Obligations.ClcClearsBitZero := fun s =>
  ⟨rfl, retire 1 (clearFlag .c s), exec_eq _ s, getLsbD_clearFlag_same .c s,
    fun _ hk => getLsbD_clearFlag_of_ne hk s, rfl, rfl, rfl, rfl, rfl, readByte_of_mem_eq rfl,
    retired_retire_clearFlag ..⟩

end Sys2Proof.FlagClearRules
end

section
/-! PROOFS. Control (44_control.md): O16. -/

namespace Sys2Proof.ControlRules

open Sys2Proof Sys2Proof.Machine Sys2Proof.Claims Sys2Proof.StateRules Sys2Proof.MemoryRules
  Sys2Proof.EncodingRules

/-- R57, R111: a RUNNING step on a listed byte is the tail of a step and nothing more. -/
theorem step_of_listedUnknown {s : State} (hr : s.runState = .running)
    (hop : ListedUnknown (readByte s s.pc).toNat) : step s = .next (retire 1 s) := by
  have hunlisted := (lookupEntry_eq_none_iff_listedUnknown _).mpr hop
  rw [step_of_running hr, fetch_none (entryOf_unlisted hunlisted), exec_eq]

/-- The state with `pc` advanced by `n` modulo 65536 and `n` more instructions counted (R75, R76). -/
def walked (n : Nat) (s : State) : State :=
  { s with pc := s.pc + BitVec.ofNat 16 n, icount := s.icount + n }

@[simp] theorem walked_zero (s : State) : walked 0 s = s := by
  simp [walked]

/-- The tail of one 1-byte step, then `n` bytes more, is `n + 1` bytes. -/
theorem walked_retire_one (n : Nat) (s : State) : walked n (retire 1 s) = walked (n + 1) s := by
  have hpc : s.pc + BitVec.ofNat 16 1 + BitVec.ofNat 16 n = s.pc + BitVec.ofNat 16 (n + 1) :=
    add_one_add_ofNat s.pc n
  have hcount : s.icount + 1 + n = s.icount + (n + 1) := by omega
  simp only [walked, retire, hpc, hcount]

/-- Settles O16, by induction on the number of steps: after the first step the same byte stands at every one
of the remaining addresses, counted from the new `pc`. -/
theorem unknownBytesAreWalkedOneByOne : Obligations.UnknownBytesAreWalkedOneByOne := by
  intro n op s hr hop hregion
  change Reaches n s (walked n s)
  induction n generalizing s with
  | zero => rw [reaches_zero, walked_zero]
  | succ n ih =>
    have hfirst : readByte s s.pc = op := by simpa using hregion 0 n.succ_pos
    have hrest : ∀ k, k < n → readByte (retire 1 s) ((retire 1 s).pc + BitVec.ofNat 16 k) = op := by
      intro k hk
      have haddr : (retire 1 s).pc + BitVec.ofNat 16 k = s.pc + BitVec.ofNat 16 (k + 1) :=
        add_one_add_ofNat s.pc k
      rw [readByte_retire, haddr]
      exact hregion (k + 1) (Nat.succ_lt_succ hk)
    rw [reaches_succ (step_of_listedUnknown hr (hfirst ▸ hop)), ← walked_retire_one]
    exact ih (retire 1 s) hr hrest

end Sys2Proof.ControlRules
end

section
/-! PROOFS. Register transfers (45_transfer.md): O17 to O21. -/

namespace Sys2Proof.TransferRules

open Sys2Proof Sys2Proof.Machine Sys2Proof.Claims Sys2Proof.LoadStoreRules

/-! ### Two instructions in a row -/

/-- N and Z describe the byte moved last, and the other bits survive both moves (R17, R79). -/
theorem movedNZ_trans {v w p q r : Byte} (hpq : MovedNZ v p q) (hqr : MovedNZ w q r) :
    MovedNZ w p r := by
  obtain ⟨-, -, hfirst⟩ := hpq
  obtain ⟨hn, hz, hsecond⟩ := hqr
  exact ⟨hn, hz, fun k h7 h1 => (hsecond k h7 h1).trans (hfirst k h7 h1)⟩

theorem sameMemory_trans {s t u : State} (hst : SameMemory s t) (htu : SameMemory t u) :
    SameMemory s u := fun addr => (htu addr).trans (hst addr)

/-- The tails of two steps add up: their lengths modulo 65536, and a count of two (R14, R75, R76). -/
theorem pc_and_icount_of_retired_twice {m n : Nat} {s t u : State} (hst : Retired m s t)
    (htu : Retired n t u) :
    u.pc.toNat = (s.pc.toNat + (m + n)) % 65536 ∧ u.icount = s.icount + 2 := by
  obtain ⟨hpc, hcount, -⟩ := hst
  obtain ⟨hpc', hcount', -⟩ := htu
  refine ⟨?_, ?_⟩
  · rw [hpc', hpc, Nat.mod_add_mod, Nat.add_assoc]
  · rw [hcount', hcount]

/-! ### The obligations

A transfer is `loadReg` of the source register, then the tail of a 1-byte step. -/

/-- Settles O17. -/
theorem taxCopiesAToX : Obligations.TaxCopiesAToX := fun s =>
  ⟨rfl, retire 1 (loadReg .x s.a s), exec_eq _ s, rfl,
    movedNZ_retire_loadReg .., rfl, rfl, rfl, readByte_of_mem_eq rfl, retired_retire_loadReg ..⟩

/-- Settles O18. -/
theorem txaCopiesXToA : Obligations.TxaCopiesXToA := fun s =>
  ⟨rfl, retire 1 (loadReg .a s.x s), exec_eq _ s, rfl,
    movedNZ_retire_loadReg .., rfl, rfl, rfl, readByte_of_mem_eq rfl, retired_retire_loadReg ..⟩

/-- Settles O19. -/
theorem tayCopiesAToY : Obligations.TayCopiesAToY := fun s =>
  ⟨rfl, retire 1 (loadReg .y s.a s), exec_eq _ s, rfl,
    movedNZ_retire_loadReg .., rfl, rfl, rfl, readByte_of_mem_eq rfl, retired_retire_loadReg ..⟩

/-- Settles O20. -/
theorem tyaCopiesYToA : Obligations.TyaCopiesYToA := fun s =>
  ⟨rfl, retire 1 (loadReg .a s.y s), exec_eq _ s, rfl,
    movedNZ_retire_loadReg .., rfl, rfl, rfl, readByte_of_mem_eq rfl, retired_retire_loadReg ..⟩

/-- Settles O21: the second transfer moves back the byte the first one copied, by the rules of the four
transfers. -/
theorem transferPairsRestoreA : Obligations.TransferPairsRestoreA := by
  refine fun s => ⟨?_, ?_⟩
  · obtain ⟨-, t, ht, hx, hnz, -, hy, hs, hmem, htail⟩ := taxCopiesAToX s
    obtain ⟨-, u, hu, ha', hnz', hx', hy', hs', hmem', htail'⟩ := txaCopiesXToA t
    rw [hx] at ha' hx' hnz'
    exact ⟨t, u, ht, hu, ha', hx', hy'.trans hy, hs'.trans hs, movedNZ_trans hnz hnz',
      sameMemory_trans hmem hmem', pc_and_icount_of_retired_twice htail htail'⟩
  · obtain ⟨-, t, ht, hy, hnz, -, hx, hs, hmem, htail⟩ := tayCopiesAToY s
    obtain ⟨-, u, hu, ha', hnz', hx', hy', hs', hmem', htail'⟩ := tyaCopiesYToA t
    rw [hy] at ha' hy' hnz'
    exact ⟨t, u, ht, hu, ha', hy', hx'.trans hx, hs'.trans hs, movedNZ_trans hnz hnz',
      sameMemory_trans hmem hmem', pc_and_icount_of_retired_twice htail htail'⟩

end Sys2Proof.TransferRules
end

section
/-! PROOFS. Reset and the end of a run (70_reset_and_hazards.md): O34. -/

namespace Sys2Proof.ResetRules

open Sys2Proof Sys2Proof.Machine Sys2Proof.Claims Sys2Proof.StateRules Sys2Proof.EngineRules
  Sys2Proof.LoadStoreRules

/-! ### Runs and the HALTED engine (R78, R144) -/

/-- From a HALTED state every run, whatever its length, reaches that state and no other (R78, decision D7). -/
theorem reaches_iff_eq_of_halted {s : State} (hs : s.runState = .halted) (n : Nat) (t : State) :
    Reaches n s t ↔ t = s := by
  induction n with
  | zero => exact reaches_zero s t
  | succ n ih => exact (reaches_succ (step_of_halted hs)).trans ih

/-- A run that is still RUNNING has counted all its steps: HALTED is never left, so none of them started
there. -/
theorem icount_eq_of_reaches_running {n : Nat} {s t : State} (h : Reaches n s t)
    (ht : t.runState = .running) : t.icount = s.icount + n := by
  induction n generalizing s with
  | zero =>
    obtain rfl := (reaches_zero s t).mp h
    rfl
  | succ n ih =>
    cases hs : s.runState with
    | running =>
      obtain ⟨u, hstep, hexec⟩ := exists_step_eq_exec_fetch hs
      have hrest : t.icount = u.icount + n := ih ((reaches_succ hstep).mp h)
      have hfirst : u.icount = s.icount + 1 := exec_icount_eq hexec
      omega
    | halted =>
      obtain rfl := (reaches_iff_eq_of_halted hs (n + 1) t).mp h
      exact absurd (hs.symm.trans ht) (by decide)

/-- The step that fetches 0x60 is the tail of a 1-byte step, and halts (R77, R110). -/
theorem step_of_opcode_rts {s : State} (hs : s.runState = .running) (hop : readByte s s.pc = 0x60) :
    step s = .next (halt (retire 1 s)) := by
  rw [step_of_running hs, (fetch_eq_rts_iff s).mpr hop, exec_eq]

/-! ### The obligations -/

/-- Settles O34: `n` counted steps lead to the RTS, its step is counted and halts, and the state it leaves is
the one every longer run reaches. -/
theorem runEndsAtTheFirstRts : Obligations.RunEndsAtTheFirstRts := by
  intro n s t hreach hrun hop
  have hcount : t.icount = s.icount + n := icount_eq_of_reaches_running hreach hrun
  have hend : Reaches (n + 1) s (halt (retire 1 t)) :=
    reaches_add hreach (reaches_one.mpr (step_of_opcode_rts hrun hop))
  have hfrozen : ∀ k, Reaches k (halt (retire 1 t)) (halt (retire 1 t)) := fun k =>
    (reaches_iff_eq_of_halted (halt_runState _) k _).mpr rfl
  obtain ⟨hpc, -⟩ : Retired 1 t (retire 1 t) := retired_retire 1 rfl rfl rfl
  exact ⟨halt (retire 1 t), rfl, congrArg (· + 1) hcount, rfl, rfl, rfl, rfl, rfl, readByte_of_mem_eq rfl,
    hpc, fun k => reaches_add hend (hfrozen k)⟩

end Sys2Proof.ResetRules
end

section
/-! PROOFS. The ends of a run and of memory, RESET and the host (20_memory.md, 40_engine_cycle.md, 44_control.md,
70_reset_and_hazards.md): O14, O28, O31, O38, O39 and O41. -/

namespace Sys2Proof.BoundaryRules

open Sys2Proof Sys2Proof.Machine Sys2Proof.Claims Sys2Proof.EngineRules
  Sys2Proof.LoadStoreRules Sys2Proof.ResetRules

/-! ### Instructions that straddle the top of memory (R36) -/

/-- LDAIM at 0xFFFF takes its literal from 0x0000. -/
theorem fetch_ldaim_at_top {s : State} (hpc : s.pc = 0xFFFF) (hop : readByte s 0xFFFF = 0xA9) :
    fetch s = .ldaim (readByte s 0x0000) := by
  have hrow : entryOf (readByte s s.pc) = .immediate8 .ldaim := by
    rw [hpc, hop]
    rfl
  rw [fetch_immediate8 hrow, hpc]
  rfl

/-- LDX at 0xFFFE takes the low half of its address from 0xFFFF and the high half from 0x0000. -/
theorem fetch_ldx_at_top {s : State} (hpc : s.pc = 0xFFFE) (hop : readByte s 0xFFFE = 0xAE) :
    fetch s = .ldx (addrOfBytes (readByte s 0xFFFF) (readByte s 0x0000)) := by
  have hrow : entryOf (readByte s s.pc) = .absolute16 .ldx := by
    rw [hpc, hop]
    rfl
  rw [fetch_absolute16 hrow, hpc]
  rfl

/-- Only one address is the number `hi * 256 + lo` (R34). -/
theorem eq_addrOfBytes_of_toNat_eq {addr : Addr} {lo hi : Byte}
    (h : addr.toNat = hi.toNat * 256 + lo.toNat) : addr = addrOfBytes lo hi :=
  BitVec.eq_of_toNat_eq (h.trans (toNat_addrOfBytes lo hi).symm)

/-! ### The host while the engine is RUNNING (R6, decision D12) -/

theorem hostAct_of_running {s : State} (hr : s.runState = .running) (action : HostAction) :
    hostAct action s = .refused .hostExcluded := by
  simp [hostAct, hr]

theorem hostView_of_running {s : State} (hr : s.runState = .running) :
    hostView s = .refused .hostExcluded := by
  simp [hostView, hr]

/-! ### The obligations -/

/-- Settles O14: RTS is the tail of a 1-byte step, and halts. -/
theorem rtsHaltsAndChangesNothingElse : Obligations.RtsHaltsAndChangesNothingElse := by
  intro s
  obtain ⟨hpc, hcount, -⟩ : Retired 1 s (retire 1 s) := retired_retire 1 rfl rfl rfl
  exact ⟨rfl, halt (retire 1 s), exec_eq _ s, halt_runState _, hcount, hpc, rfl, rfl, rfl, rfl, rfl,
    readByte_of_mem_eq rfl⟩

/-- Settles O28. -/
theorem haltedEngineChangesNothing : Obligations.HaltedEngineChangesNothing := fun n s hs =>
  (reaches_iff_eq_of_halted hs n s).mpr rfl

/-- Settles O31: `pc`, and with it the address of every operand byte, is added to modulo 65536. -/
theorem operandFetchWrapsAtTheTopOfMemory : Obligations.OperandFetchWrapsAtTheTopOfMemory := by
  refine ⟨fun s hr hpc hop => ?ldaim, fun s hr hpc hop => ?ldx⟩
  case ldaim =>
    refine ⟨retire 2 (loadReg .a (readByte s 0x0000) s), ?_, rfl, ?_⟩
    · rw [step_of_running hr, fetch_ldaim_at_top hpc hop, exec_eq]
    · rw [retire_pc, loadReg_pc, hpc]
      rfl
  case ldx =>
    refine ⟨retire 3 (loadReg .x (readByte s (addrOfBytes (readByte s 0xFFFF) (readByte s 0x0000))) s),
      ?_, ?_, fun addr haddr => ?_⟩
    · rw [step_of_running hr, fetch_ldx_at_top hpc hop, exec_eq]
    · rw [retire_pc, loadReg_pc, hpc]
      rfl
    · rw [retire_x, loadReg_x_x, eq_addrOfBytes_of_toNat_eq haddr]

/-- Settles O38: RESET leaves no cell listed, and an unlisted cell reads as 0. -/
theorem resetZeroesRegistersAndMemory : Obligations.ResetZeroesRegistersAndMemory :=
  ⟨rfl, rfl, rfl, rfl, rfl, fun _ => rfl, rfl, rfl, rfl⟩

/-- Settles O39: START leaves memory, so what the bytes at the load address decode to is what the next step
runs, by O25. -/
theorem startBeginsARunAtTheLoadAddress : Obligations.StartBeginsARunAtTheLoadAddress := by
  intro loadAddress s i rest hs hdec
  have hstep : step (hostStart loadAddress s) = exec i (hostStart loadAddress s) :=
    stepRunsTheDecodedInstruction (hostStart loadAddress s) i rest (hostStart_runState ..) hdec
  exact ⟨hostStart loadAddress s, hostAct_of_halted hs _, rfl, rfl, rfl, rfl, rfl, rfl, rfl, rfl,
    readByte_of_mem_eq rfl, hstep⟩

/-- Settles O41. -/
theorem hostHasNoMoveWhileRunning : Obligations.HostHasNoMoveWhileRunning := fun action _ hr =>
  ⟨hostAct_of_running hr action, hostView_of_running hr⟩

end Sys2Proof.BoundaryRules
end
